-- ==== Sys2Proof/Word.lean ====
section
/-!
DEFINITION. The word types of chipate CORE: every quantity the spec treats as bits is unsigned (R8), with
bit 0 the least significant bit (R7).
-/

namespace Sys2Proof

/-- A memory byte, a general register or a timer (R20, R29, R50). -/
abbrev Byte := BitVec 8

/-- An opcode, the program counter, the index register or a return address (R23, R26, R27, R70). -/
abbrev Word := BitVec 16

/-- A 4-bit field of an opcode: a register number `x` or `y`, or the count `n` (R72). -/
abbrev Nibble := BitVec 4

/-- The 12-bit immediate `nnn` (R72). -/
abbrev Imm12 := BitVec 12

end Sys2Proof
end

