-- ==== Sys2Proof/Config.lean ====
section
/-!
DEFINITION. The parameters of R5 that an implementation fixes, at the values the spec makes this hardware's own,
and the one free value of the machine, the random byte of Cxnn (R131). The sizes R5 fixes outright (4096 bytes,
16 registers, 16 stack slots, 64 by 32 cells) stand as literals in the types of State.
-/

namespace Sys2Proof

/-- The operand of 8xy6 and 8xyE: `V[x]` in place, or `V[y]` (R5, R6 `SHIFT_SRC`). -/
inductive ShiftSource where
  | vx
  | vy
  deriving DecidableEq, Repr

/-- The register Bnnn adds: `V[0]`, or `V[x]` with `x = op[11:8]` (R5, R6 `JUMP_BASE`). -/
inductive JumpBase where
  | v0
  | vx
  deriving DecidableEq, Repr

namespace Config

/-- `SHIFT_SRC`: the in-place variant is what the hardware does (R6, R128, R130; log 17). -/
def shiftSource : ShiftSource := .vx

/-- `JUMP_BASE`: the register-0 variant is what the hardware does (R6, R103; log 17). -/
def jumpBase : JumpBase := .v0

/-- `PROG_BASE`: the load address and the initial `pc` (R5). -/
def progBase : Word := 0x200#16

/-- `MAX_IMAGE`: the longest program image, in bytes (R5, R201). -/
def maxImage : Nat := 3584

/-- `MEM_INIT`: every byte outside the font at power-on. DESIGN CHOICE of the spec (R200, D15; log 4), unsafe. -/
def memInit : Byte := 0x00#8

/-- `FONT`: the 80 bytes at 0x000 to 0x04F at power-on, glyph `d` at `d * 5`, top row first (R54).
PRESUMED: the source gives none of them, the spec's default is general knowledge (D17, G2; log 3), unsafe. -/
def font : List Byte :=
  [0xF0#8, 0x90#8, 0x90#8, 0x90#8, 0xF0#8,
   0x20#8, 0x60#8, 0x20#8, 0x20#8, 0x70#8,
   0xF0#8, 0x10#8, 0xF0#8, 0x80#8, 0xF0#8,
   0xF0#8, 0x10#8, 0xF0#8, 0x10#8, 0xF0#8] ++
  [0x90#8, 0x90#8, 0xF0#8, 0x10#8, 0x10#8,
   0xF0#8, 0x80#8, 0xF0#8, 0x10#8, 0xF0#8,
   0xF0#8, 0x80#8, 0xF0#8, 0x90#8, 0xF0#8,
   0xF0#8, 0x10#8, 0x20#8, 0x40#8, 0x40#8] ++
  [0xF0#8, 0x90#8, 0xF0#8, 0x90#8, 0xF0#8,
   0xF0#8, 0x90#8, 0xF0#8, 0x10#8, 0xF0#8,
   0xF0#8, 0x90#8, 0xF0#8, 0x90#8, 0x90#8,
   0xE0#8, 0x90#8, 0xE0#8, 0x90#8, 0xE0#8] ++
  [0xF0#8, 0x80#8, 0x80#8, 0x80#8, 0xF0#8,
   0xE0#8, 0x90#8, 0x90#8, 0x90#8, 0xE0#8,
   0xF0#8, 0x80#8, 0xF0#8, 0x80#8, 0xF0#8,
   0xF0#8, 0x80#8, 0xF0#8, 0x80#8, 0x80#8]

/-- `Rnd()`: the byte the environment supplies to the `k`-th Cxnn, under no law (R131, D18; log 1). It has no body,
so whatever is proved holds for every sequence of bytes. -/
opaque randomByte : Nat → Byte

end Config

end Sys2Proof
end

