-- ==== Sys2Proof/Syntax.lean ====
section
/-!
DEFINITION. The 34 instructions of R75, one constructor per row of the opcode map, named after the row's mnemonic.
Operand fields have the width the encoding gives them (R72), and every value of a field is legal (R73).
-/

namespace Sys2Proof

/-- The instruction set: R75 lists every instruction, there is no other (R1, R78, R81). -/
inductive Instr where
  /-- 00E0 CLS (R150) -/
  | cls
  /-- 00EE RET (R100) -/
  | ret
  /-- 1nnn JP nnn (R101) -/
  | jp (nnn : Imm12)
  /-- 2nnn CALL nnn (R102) -/
  | call (nnn : Imm12)
  /-- 3xnn SE Vx, nn (R110) -/
  | seImm (x : Nibble) (nn : Byte)
  /-- 4xnn SNE Vx, nn (R111) -/
  | sneImm (x : Nibble) (nn : Byte)
  /-- 5xy0 SE Vx, Vy (R112) -/
  | seReg (x y : Nibble)
  /-- 6xnn LD Vx, nn (R120) -/
  | ldImm (x : Nibble) (nn : Byte)
  /-- 7xnn ADD Vx, nn (R121) -/
  | addImm (x : Nibble) (nn : Byte)
  /-- 8xy0 LD Vx, Vy (R122) -/
  | ldReg (x y : Nibble)
  /-- 8xy1 OR Vx, Vy (R123) -/
  | orReg (x y : Nibble)
  /-- 8xy2 AND Vx, Vy (R124) -/
  | andReg (x y : Nibble)
  /-- 8xy3 XOR Vx, Vy (R125) -/
  | xorReg (x y : Nibble)
  /-- 8xy4 ADD Vx, Vy (R126) -/
  | addReg (x y : Nibble)
  /-- 8xy5 SUB Vx, Vy (R127) -/
  | subReg (x y : Nibble)
  /-- 8xy6 SHR Vx, Vy (R128) -/
  | shr (x y : Nibble)
  /-- 8xy7 SUBN Vx, Vy (R129) -/
  | subnReg (x y : Nibble)
  /-- 8xyE SHL Vx, Vy (R130) -/
  | shl (x y : Nibble)
  /-- 9xy0 SNE Vx, Vy (R113) -/
  | sneReg (x y : Nibble)
  /-- Annn LD I, nnn (R140) -/
  | ldI (nnn : Imm12)
  /-- Bnnn JP V0, nnn (R103) -/
  | jpV0 (nnn : Imm12)
  /-- Cxnn RND Vx, nn (R131) -/
  | rnd (x : Nibble) (nn : Byte)
  /-- Dxyn DRW Vx, Vy, n (R151) -/
  | drw (x y n : Nibble)
  /-- Ex9E SKP Vx (R160) -/
  | skp (x : Nibble)
  /-- ExA1 SKNP Vx (R161) -/
  | sknp (x : Nibble)
  /-- Fx07 LD Vx, DT (R162) -/
  | ldVxDt (x : Nibble)
  /-- Fx0A LD Vx, K (R165) -/
  | ldVxK (x : Nibble)
  /-- Fx15 LD DT, Vx (R163) -/
  | ldDtVx (x : Nibble)
  /-- Fx18 LD ST, Vx (R164) -/
  | ldStVx (x : Nibble)
  /-- Fx1E ADD I, Vx (R141) -/
  | addI (x : Nibble)
  /-- Fx29 LD F, Vx (R142) -/
  | ldF (x : Nibble)
  /-- Fx33 LD B, Vx (R143) -/
  | ldB (x : Nibble)
  /-- Fx55 LD [I], Vx (R144) -/
  | storeRegs (x : Nibble)
  /-- Fx65 LD Vx, [I] (R145) -/
  | loadRegs (x : Nibble)
  deriving DecidableEq, Repr

end Sys2Proof
end

