-- ==== Sys2Proof/WellFormed.lean ====
section
/-!
DEFINITION. The opcode map of R75 as rows of mask and match, read from the table and not from the decoder, and the
checks the spec gives: which words are instructions (R75, R77) and which program images may be loaded (R201).
Every term of `Instr` is well-formed: the operand fields have the widths of R72 and R73 gives every value of each a meaning.
-/

namespace Sys2Proof

/-- A row of the opcode map: a word belongs to it when `op & mask = pattern` (R75). -/
structure OpcodeRow where
  mnemonic : String
  mask : Word
  pattern : Word
  deriving DecidableEq, Repr

/-- `op` belongs to the row (R75). -/
def OpcodeRow.covers (r : OpcodeRow) (op : Word) : Bool := op &&& r.mask == r.pattern

/-- No word belongs to both rows: two fixed bits of theirs differ (R75 "the rows are disjoint"). -/
def OpcodeRow.disjoint (r q : OpcodeRow) : Bool := r.pattern &&& q.mask != q.pattern &&& r.mask

/-- The 34 rows of R75, in its order. -/
def opcodeMap : List OpcodeRow :=
  [⟨"00E0", 0xFFFF#16, 0x00E0#16⟩,
   ⟨"00EE", 0xFFFF#16, 0x00EE#16⟩,
   ⟨"1nnn", 0xF000#16, 0x1000#16⟩,
   ⟨"2nnn", 0xF000#16, 0x2000#16⟩,
   ⟨"3xnn", 0xF000#16, 0x3000#16⟩,
   ⟨"4xnn", 0xF000#16, 0x4000#16⟩,
   ⟨"5xy0", 0xF00F#16, 0x5000#16⟩,
   ⟨"6xnn", 0xF000#16, 0x6000#16⟩,
   ⟨"7xnn", 0xF000#16, 0x7000#16⟩,
   ⟨"8xy0", 0xF00F#16, 0x8000#16⟩,
   ⟨"8xy1", 0xF00F#16, 0x8001#16⟩,
   ⟨"8xy2", 0xF00F#16, 0x8002#16⟩,
   ⟨"8xy3", 0xF00F#16, 0x8003#16⟩] ++
  [⟨"8xy4", 0xF00F#16, 0x8004#16⟩,
   ⟨"8xy5", 0xF00F#16, 0x8005#16⟩,
   ⟨"8xy6", 0xF00F#16, 0x8006#16⟩,
   ⟨"8xy7", 0xF00F#16, 0x8007#16⟩,
   ⟨"8xyE", 0xF00F#16, 0x800E#16⟩,
   ⟨"9xy0", 0xF00F#16, 0x9000#16⟩,
   ⟨"Annn", 0xF000#16, 0xA000#16⟩,
   ⟨"Bnnn", 0xF000#16, 0xB000#16⟩,
   ⟨"Cxnn", 0xF000#16, 0xC000#16⟩,
   ⟨"Dxyn", 0xF000#16, 0xD000#16⟩] ++
  [⟨"Ex9E", 0xF0FF#16, 0xE09E#16⟩,
   ⟨"ExA1", 0xF0FF#16, 0xE0A1#16⟩,
   ⟨"Fx07", 0xF0FF#16, 0xF007#16⟩,
   ⟨"Fx0A", 0xF0FF#16, 0xF00A#16⟩,
   ⟨"Fx15", 0xF0FF#16, 0xF015#16⟩,
   ⟨"Fx18", 0xF0FF#16, 0xF018#16⟩,
   ⟨"Fx1E", 0xF0FF#16, 0xF01E#16⟩,
   ⟨"Fx29", 0xF0FF#16, 0xF029#16⟩,
   ⟨"Fx33", 0xF0FF#16, 0xF033#16⟩,
   ⟨"Fx55", 0xF0FF#16, 0xF055#16⟩,
   ⟨"Fx65", 0xF0FF#16, 0xF065#16⟩]

/-- The row of R75 an instruction is an instance of. -/
def Instr.row : Instr → OpcodeRow
  | .cls => ⟨"00E0", 0xFFFF#16, 0x00E0#16⟩
  | .ret => ⟨"00EE", 0xFFFF#16, 0x00EE#16⟩
  | .jp _ => ⟨"1nnn", 0xF000#16, 0x1000#16⟩
  | .call _ => ⟨"2nnn", 0xF000#16, 0x2000#16⟩
  | .seImm _ _ => ⟨"3xnn", 0xF000#16, 0x3000#16⟩
  | .sneImm _ _ => ⟨"4xnn", 0xF000#16, 0x4000#16⟩
  | .seReg _ _ => ⟨"5xy0", 0xF00F#16, 0x5000#16⟩
  | .ldImm _ _ => ⟨"6xnn", 0xF000#16, 0x6000#16⟩
  | .addImm _ _ => ⟨"7xnn", 0xF000#16, 0x7000#16⟩
  | .ldReg _ _ => ⟨"8xy0", 0xF00F#16, 0x8000#16⟩
  | .orReg _ _ => ⟨"8xy1", 0xF00F#16, 0x8001#16⟩
  | .andReg _ _ => ⟨"8xy2", 0xF00F#16, 0x8002#16⟩
  | .xorReg _ _ => ⟨"8xy3", 0xF00F#16, 0x8003#16⟩
  | .addReg _ _ => ⟨"8xy4", 0xF00F#16, 0x8004#16⟩
  | .subReg _ _ => ⟨"8xy5", 0xF00F#16, 0x8005#16⟩
  | .shr _ _ => ⟨"8xy6", 0xF00F#16, 0x8006#16⟩
  | .subnReg _ _ => ⟨"8xy7", 0xF00F#16, 0x8007#16⟩
  | .shl _ _ => ⟨"8xyE", 0xF00F#16, 0x800E#16⟩
  | .sneReg _ _ => ⟨"9xy0", 0xF00F#16, 0x9000#16⟩
  | .ldI _ => ⟨"Annn", 0xF000#16, 0xA000#16⟩
  | .jpV0 _ => ⟨"Bnnn", 0xF000#16, 0xB000#16⟩
  | .rnd _ _ => ⟨"Cxnn", 0xF000#16, 0xC000#16⟩
  | .drw _ _ _ => ⟨"Dxyn", 0xF000#16, 0xD000#16⟩
  | .skp _ => ⟨"Ex9E", 0xF0FF#16, 0xE09E#16⟩
  | .sknp _ => ⟨"ExA1", 0xF0FF#16, 0xE0A1#16⟩
  | .ldVxDt _ => ⟨"Fx07", 0xF0FF#16, 0xF007#16⟩
  | .ldVxK _ => ⟨"Fx0A", 0xF0FF#16, 0xF00A#16⟩
  | .ldDtVx _ => ⟨"Fx15", 0xF0FF#16, 0xF015#16⟩
  | .ldStVx _ => ⟨"Fx18", 0xF0FF#16, 0xF018#16⟩
  | .addI _ => ⟨"Fx1E", 0xF0FF#16, 0xF01E#16⟩
  | .ldF _ => ⟨"Fx29", 0xF0FF#16, 0xF029#16⟩
  | .ldB _ => ⟨"Fx33", 0xF0FF#16, 0xF033#16⟩
  | .storeRegs _ => ⟨"Fx55", 0xF0FF#16, 0xF055#16⟩
  | .loadRegs _ => ⟨"Fx65", 0xF0FF#16, 0xF065#16⟩

/-- `op` is an instruction and not an unknown opcode (R75, R77). -/
def wellFormedWord (op : Word) : Bool := opcodeMap.any (fun r => r.covers op)

/-- `image` may be loaded: it fits between 0x200 and 0xFFF (R201). -/
def wellFormedImage (image : List Byte) : Bool := decide (image.length ≤ Config.maxImage)

end Sys2Proof
end

