-- ==== Sys2Proof/Decode.lean ====
section
/-!
DEFINITION. Decoding, total on any bytes and rejecting by name, written from the patterns of R75; then the encoder,
written from the layouts of R74; then one written-out word per constructor. Instructions are 16 bits (R70), big-endian
in memory (R55, R71).
-/

namespace Sys2Proof

/-! The fields of an opcode (R72). -/

/-- `t = op[15:12]`. -/
def topNibble (op : Word) : Nibble := op.extractLsb' 12 4
/-- `x = op[11:8]`. -/
def fieldX (op : Word) : Nibble := op.extractLsb' 8 4
/-- `y = op[7:4]`. -/
def fieldY (op : Word) : Nibble := op.extractLsb' 4 4
/-- `n = op[3:0]`. -/
def fieldN (op : Word) : Nibble := op.extractLsb' 0 4
/-- `nn = op[7:0]`. -/
def fieldNN (op : Word) : Byte := op.extractLsb' 0 8
/-- `nnn = op[11:0]`. -/
def fieldNNN (op : Word) : Imm12 := op.extractLsb' 0 12

/-- The two bytes of an opcode, the byte at the lower address being bits 15 to 8 (R55, R71). -/
def wordOfBytes (hi lo : Byte) : Word := hi ++ lo

/-- The byte of an opcode stored at the lower address (R55). -/
def highByte (op : Word) : Byte := op.extractLsb' 8 8
/-- The byte of an opcode stored at the higher address (R55). -/
def lowByte (op : Word) : Byte := op.extractLsb' 0 8

/-! The secondary dispatch of the families 8, E and F (R75, R76). -/

/-- Family 8, selected by the low nibble. -/
def decodeAlu (x y n : Nibble) : Option Instr :=
  match n with
  | 0x0#4 => some (.ldReg x y)
  | 0x1#4 => some (.orReg x y)
  | 0x2#4 => some (.andReg x y)
  | 0x3#4 => some (.xorReg x y)
  | 0x4#4 => some (.addReg x y)
  | 0x5#4 => some (.subReg x y)
  | 0x6#4 => some (.shr x y)
  | 0x7#4 => some (.subnReg x y)
  | 0xE#4 => some (.shl x y)
  | _ => none

/-- Family E, selected by the low byte. -/
def decodeKeys (x : Nibble) (nn : Byte) : Option Instr :=
  match nn with
  | 0x9E#8 => some (.skp x)
  | 0xA1#8 => some (.sknp x)
  | _ => none

/-- Family F, selected by the low byte. -/
def decodeMisc (x : Nibble) (nn : Byte) : Option Instr :=
  match nn with
  | 0x07#8 => some (.ldVxDt x)
  | 0x0A#8 => some (.ldVxK x)
  | 0x15#8 => some (.ldDtVx x)
  | 0x18#8 => some (.ldStVx x)
  | 0x1E#8 => some (.addI x)
  | 0x29#8 => some (.ldF x)
  | 0x33#8 => some (.ldB x)
  | 0x55#8 => some (.storeRegs x)
  | 0x65#8 => some (.loadRegs x)
  | _ => none

/-- Family 0: two whole words, every other `0nnn` being unknown (R77 (a), D4; log 10). -/
def decodeZero (nnn : Imm12) : Option Instr :=
  match nnn with
  | 0x0E0#12 => some .cls
  | 0x0EE#12 => some .ret
  | _ => none

/-- The instruction a word is, or none for an unknown opcode (R75, R77). Patterns are read exactly: every hexadecimal
digit of a pattern is compared (C5, D4; log 10). -/
def decodeWord (op : Word) : Option Instr :=
  let x := fieldX op
  let y := fieldY op
  let n := fieldN op
  let nn := fieldNN op
  let nnn := fieldNNN op
  match topNibble op with
  | 0x0#4 => decodeZero nnn
  | 0x1#4 => some (.jp nnn)
  | 0x2#4 => some (.call nnn)
  | 0x3#4 => some (.seImm x nn)
  | 0x4#4 => some (.sneImm x nn)
  | 0x5#4 => if n = 0x0#4 then some (.seReg x y) else none
  | 0x6#4 => some (.ldImm x nn)
  | 0x7#4 => some (.addImm x nn)
  | 0x8#4 => decodeAlu x y n
  | 0x9#4 => if n = 0x0#4 then some (.sneReg x y) else none
  | 0xA#4 => some (.ldI nnn)
  | 0xB#4 => some (.jpV0 nnn)
  | 0xC#4 => some (.rnd x nn)
  | 0xD#4 => some (.drw x y n)
  | 0xE#4 => decodeKeys x nn
  | _ => decodeMisc x nn

/-- Why bytes are no instruction. -/
inductive DecodeError where
  /-- The word matches no row of R75: an unknown opcode, which `Step` reports and skips (R77, R104). -/
  | unknownOpcode (op : Word)
  /-- Fewer than two bytes are there: no instruction is shorter than 16 bits (R70). -/
  | truncated
  deriving DecidableEq, Repr

/-- Decoding bytes in memory order: the first instruction and the bytes after it, or the reason there is none. -/
def decodeBytes : List Byte → Except DecodeError (Instr × List Byte)
  | hi :: lo :: rest =>
    match decodeWord (wordOfBytes hi lo) with
    | some i => .ok (i, rest)
    | none => .error (.unknownOpcode (wordOfBytes hi lo))
  | _ => .error .truncated

/-- The host's reading of a table row: bit 0 is the least significant bit of the one 16-bit word, bits from `nbits` up
are 0. The word is laid out big-endian (R55) and given to the decoder. -/
def decodeTableWord (nbits w : Nat) : Option Instr :=
  let op : Word := BitVec.ofNat 16 (w % 2 ^ nbits)
  match decodeBytes [highByte op, lowByte op] with
  | .ok (i, _) => some i
  | .error _ => none

/-! The layouts of R74, high bits first. -/

/-- Layout `A`. -/
def layoutA (t : Nibble) (nnn : Imm12) : Word := t ++ nnn
/-- Layouts `XI` and `XF`: the low byte is an immediate or selects the operation. -/
def layoutXI (t x : Nibble) (nn : Byte) : Word := t ++ x ++ nn
/-- Layouts `XY` and `XYN`: the low nibble selects the operation or is the count. -/
def layoutXY (t x y n : Nibble) : Word := t ++ x ++ y ++ n

/-- The word of an instruction (R74, R75). -/
def encode : Instr → Word
  | .cls => 0x00E0#16
  | .ret => 0x00EE#16
  | .jp nnn => layoutA 0x1#4 nnn
  | .call nnn => layoutA 0x2#4 nnn
  | .seImm x nn => layoutXI 0x3#4 x nn
  | .sneImm x nn => layoutXI 0x4#4 x nn
  | .seReg x y => layoutXY 0x5#4 x y 0x0#4
  | .ldImm x nn => layoutXI 0x6#4 x nn
  | .addImm x nn => layoutXI 0x7#4 x nn
  | .ldReg x y => layoutXY 0x8#4 x y 0x0#4
  | .orReg x y => layoutXY 0x8#4 x y 0x1#4
  | .andReg x y => layoutXY 0x8#4 x y 0x2#4
  | .xorReg x y => layoutXY 0x8#4 x y 0x3#4
  | .addReg x y => layoutXY 0x8#4 x y 0x4#4
  | .subReg x y => layoutXY 0x8#4 x y 0x5#4
  | .shr x y => layoutXY 0x8#4 x y 0x6#4
  | .subnReg x y => layoutXY 0x8#4 x y 0x7#4
  | .shl x y => layoutXY 0x8#4 x y 0xE#4
  | .sneReg x y => layoutXY 0x9#4 x y 0x0#4
  | .ldI nnn => layoutA 0xA#4 nnn
  | .jpV0 nnn => layoutA 0xB#4 nnn
  | .rnd x nn => layoutXI 0xC#4 x nn
  | .drw x y n => layoutXY 0xD#4 x y n
  | .skp x => layoutXI 0xE#4 x 0x9E#8
  | .sknp x => layoutXI 0xE#4 x 0xA1#8
  | .ldVxDt x => layoutXI 0xF#4 x 0x07#8
  | .ldVxK x => layoutXI 0xF#4 x 0x0A#8
  | .ldDtVx x => layoutXI 0xF#4 x 0x15#8
  | .ldStVx x => layoutXI 0xF#4 x 0x18#8
  | .addI x => layoutXI 0xF#4 x 0x1E#8
  | .ldF x => layoutXI 0xF#4 x 0x29#8
  | .ldB x => layoutXI 0xF#4 x 0x33#8
  | .storeRegs x => layoutXI 0xF#4 x 0x55#8
  | .loadRegs x => layoutXI 0xF#4 x 0x65#8

/-- The bytes of an instruction in memory order (R55). -/
def encodeBytes (i : Instr) : List Byte := [highByte (encode i), lowByte (encode i)]

/-! One word per constructor, written out from the patterns of R75; the words are those of the decode vectors
of 95_test_vectors.md, section 2.8. -/

theorem decode_00E0 : decodeWord 0x00E0#16 = some .cls := by decide
theorem decode_00EE : decodeWord 0x00EE#16 = some .ret := by decide
theorem decode_1FFF : decodeWord 0x1FFF#16 = some (.jp 0xFFF#12) := by decide
theorem decode_2ABC : decodeWord 0x2ABC#16 = some (.call 0xABC#12) := by decide
theorem decode_3A7F : decodeWord 0x3A7F#16 = some (.seImm 0xA#4 0x7F#8) := by decide
theorem decode_4F00 : decodeWord 0x4F00#16 = some (.sneImm 0xF#4 0x00#8) := by decide
theorem decode_5AB0 : decodeWord 0x5AB0#16 = some (.seReg 0xA#4 0xB#4) := by decide
theorem decode_6C99 : decodeWord 0x6C99#16 = some (.ldImm 0xC#4 0x99#8) := by decide
theorem decode_7001 : decodeWord 0x7001#16 = some (.addImm 0x0#4 0x01#8) := by decide
theorem decode_8AB0 : decodeWord 0x8AB0#16 = some (.ldReg 0xA#4 0xB#4) := by decide
theorem decode_8AB1 : decodeWord 0x8AB1#16 = some (.orReg 0xA#4 0xB#4) := by decide
theorem decode_8AB2 : decodeWord 0x8AB2#16 = some (.andReg 0xA#4 0xB#4) := by decide
theorem decode_8AB3 : decodeWord 0x8AB3#16 = some (.xorReg 0xA#4 0xB#4) := by decide
theorem decode_8AB4 : decodeWord 0x8AB4#16 = some (.addReg 0xA#4 0xB#4) := by decide
theorem decode_8AB5 : decodeWord 0x8AB5#16 = some (.subReg 0xA#4 0xB#4) := by decide
theorem decode_8AB6 : decodeWord 0x8AB6#16 = some (.shr 0xA#4 0xB#4) := by decide
theorem decode_8AB7 : decodeWord 0x8AB7#16 = some (.subnReg 0xA#4 0xB#4) := by decide
theorem decode_8ABE : decodeWord 0x8ABE#16 = some (.shl 0xA#4 0xB#4) := by decide
theorem decode_9AB0 : decodeWord 0x9AB0#16 = some (.sneReg 0xA#4 0xB#4) := by decide
theorem decode_A123 : decodeWord 0xA123#16 = some (.ldI 0x123#12) := by decide
theorem decode_B123 : decodeWord 0xB123#16 = some (.jpV0 0x123#12) := by decide
theorem decode_C3F0 : decodeWord 0xC3F0#16 = some (.rnd 0x3#4 0xF0#8) := by decide
theorem decode_D125 : decodeWord 0xD125#16 = some (.drw 0x1#4 0x2#4 0x5#4) := by decide
theorem decode_E39E : decodeWord 0xE39E#16 = some (.skp 0x3#4) := by decide
theorem decode_E3A1 : decodeWord 0xE3A1#16 = some (.sknp 0x3#4) := by decide
theorem decode_F307 : decodeWord 0xF307#16 = some (.ldVxDt 0x3#4) := by decide
theorem decode_F30A : decodeWord 0xF30A#16 = some (.ldVxK 0x3#4) := by decide
theorem decode_F315 : decodeWord 0xF315#16 = some (.ldDtVx 0x3#4) := by decide
theorem decode_F318 : decodeWord 0xF318#16 = some (.ldStVx 0x3#4) := by decide
theorem decode_F31E : decodeWord 0xF31E#16 = some (.addI 0x3#4) := by decide
theorem decode_F329 : decodeWord 0xF329#16 = some (.ldF 0x3#4) := by decide
theorem decode_F333 : decodeWord 0xF333#16 = some (.ldB 0x3#4) := by decide
theorem decode_F355 : decodeWord 0xF355#16 = some (.storeRegs 0x3#4) := by decide
theorem decode_F365 : decodeWord 0xF365#16 = some (.loadRegs 0x3#4) := by decide

end Sys2Proof
end

