-- ==== Sys2Proof/Machine/State.lean ====
section
/-!
DEFINITION. The state of chipate CORE as plain data (10_state.md), the reasons a step or a host event can stop, and the
state after power-on (R37, R200).
-/

namespace Sys2Proof.Machine

/-- The five faults of R170. `Step` RAISES them as the spec says (R180): the latch takes the code and the step answers a
NEXT state. No step and no host event answers `Host.Outcome.fault` (log 6). All five are safe: they stop the machine
where the source calls the behaviour undefined, and a run that claims accept has no fault latched (R180). -/
inductive Fault where
  /-- Code 1: raised by the fetch when `pc > 0xFFE` (R171). Safe. -/
  | fetchRange
  /-- Code 2: raised by Fx33, Fx55, Fx65, Dxyn when the highest address to be touched is above 0xFFF (R172). Safe. -/
  | memRange
  /-- Code 3: raised by 2nnn at `sp = 16` (R173). Safe. -/
  | stackOverflow
  /-- Code 4: raised by 00EE at `sp = 0` (R174). Safe. -/
  | stackUnderflow
  /-- Code 5: raised by Ex9E and ExA1 when `V[x] > 15` (R175). Safe. -/
  | keyRange
  deriving DecidableEq, Repr

/-- The code the spec gives the fault (R170). -/
def Fault.code : Fault → Nat
  | .fetchRange => 1
  | .memRange => 2
  | .stackOverflow => 3
  | .stackUnderflow => 4
  | .keyRange => 5

/-- Why the model declines. No instruction raises any of these. -/
inductive Refusal where
  /-- The instruction has no meaning in this model; no arm raises it. Safe. -/
  | notModelled (mnemonic : String)
  /-- Raised by `Load` for an image above 3584 bytes: no byte is placed (R177, R201). Safe. -/
  | imageTooLarge
  /-- Raised by a host event that comes outside the lifecycle of R192, R201 and R203 (log 21). Safe. -/
  | hostOutOfOrder
  deriving DecidableEq, Repr

/-- An output event of the block (R15, R192). -/
inductive Output where
  /-- `Present()`: emitted by every Dxyn that does not fault (R151). -/
  | present
  /-- `Report(pc, op)`: emitted for an unknown opcode (R104). -/
  | report (pc op : Word)
  deriving DecidableEq, Repr

/-- Memory as the cells that differ from the contents at power-on, addresses strictly rising (R33, R50). -/
abbrev Memory := List Host.Cell

/-- The framebuffer: 64 columns of 32 cells, column first as in `fb[cx][cy]` (R30). -/
abbrev Framebuffer := Vector (Vector Bool 32) 64

/-- Every piece of state the spec names, then the model's own two fields. -/
structure State where
  /-- `V[0x0]` to `V[0xF]` (R20); the last is `VF` (R21). -/
  v : Vector Byte 16
  /-- The index register `I` (R26). -/
  i : Word
  /-- The program counter (R23). -/
  pc : Word
  /-- The stack pointer, 0 to 16 (R28): the number of return addresses held. -/
  sp : Fin 17
  /-- `stack[0]` to `stack[15]` (R27). -/
  stack : Vector Word 16
  /-- The delay timer `DT` (R29). -/
  dt : Byte
  /-- The sound timer `ST` (R29). -/
  st : Byte
  /-- `fb[cx][cy]`, true = on (R30). -/
  fb : Framebuffer
  /-- `keys[k]`, true = pressed: an input the host sets (R31). -/
  keys : Vector Bool 16
  /-- The fault latch: `None` or (code, info), the info over the integers (R32, R170; log 24). -/
  fault : Option (Fault × Nat)
  /-- The 4096 bytes of memory (R33). -/
  mem : Memory
  /-- The model's own: how many bytes `Rnd()` has supplied, so that each draw is fresh (R131; log 1). -/
  draws : Nat
  /-- The model's own: the output events emitted so far, oldest first (R15; log 7). -/
  outputs : List Output
  deriving DecidableEq, Repr

/-- What a step or a host event answers. -/
abbrev Result := Host.Outcome State Fault Refusal

/-- The machine after `PowerOn` (R37, R200): memory lists nothing, so it reads as the font and `MEM_INIT`. The keys have
no reset value in the spec: none is down, DESIGN CHOICE (log 2), unsafe. `I`, the stack slots and the latch are the
spec's own decision D16 (log 5). -/
def State.reset : State where
  v := Vector.replicate 16 0x00#8
  i := 0x0000#16
  pc := Config.progBase
  sp := 0
  stack := Vector.replicate 16 0x0000#16
  dt := 0x00#8
  st := 0x00#8
  fb := Vector.replicate 64 (Vector.replicate 32 false)
  keys := Vector.replicate 16 false
  fault := none
  mem := []
  draws := 0
  outputs := []

end Sys2Proof.Machine
end

