-- ==== Sys2Proof/Machine/Ops.lean ====
section
/-!
DEFINITION. The named operations over memory, registers, the call stack, the framebuffer and the fault latch. Raising a
fault is the one shared operation `raise` (R11, R180); leaving one is the host's `Reset` alone (R181, Machine/Events.lean).
-/

namespace Sys2Proof.Machine

/-! ## Memory (R50 to R60) -/

/-- The contents of memory at power-on: the font at 0x000 to 0x04F, `MEM_INIT` elsewhere (R53, R54, R200). It is what an
address that memory does not list reads as. -/
def initialByte (a : Nat) : Byte := Config.font.getD a Config.memInit

/-- `MemRead(a, 1)` (R60), for `a ≤ 0xFFF`; never called outside it (R59, R171). -/
def readByte : Memory → Nat → Byte
  | [], a => initialByte a
  | (k, b) :: rest, a => if a = k then b else if a < k then initialByte a else readByte rest a

/-- The list with `a` reading as `b`, where `rest` holds only addresses above `a`. -/
def consByte (a : Nat) (b : Byte) (rest : Memory) : Memory :=
  if b = initialByte a then rest else (a, b) :: rest

/-- `MemWrite(a, 1, b)` (R60), for `a ≤ 0xFFF`. It keeps the canonical form. -/
def writeByte : Memory → Nat → Byte → Memory
  | [], a, b => consByte a b []
  | (k, c) :: rest, a, b =>
    if a < k then consByte a b ((k, c) :: rest)
    else if a = k then consByte a b rest
    else (k, c) :: writeByte rest a b

/-- Bytes stored at `a`, `a + 1`, … in ascending order (R56, R58). -/
def writeBytes : Memory → Nat → List Byte → Memory
  | m, _, [] => m
  | m, a, b :: bs => writeBytes (writeByte m a b) (a + 1) bs

/-- The `n` bytes at `a`, `a + 1`, … in ascending order (R56, R58). -/
def readBytes (m : Memory) (a n : Nat) : List Byte := (List.range n).map fun k => readByte m (a + k)

/-- The listed addresses rise strictly from `lo`, lie inside the 4096 bytes, and none holds its power-on contents. -/
def Memory.wfFrom : Nat → Memory → Bool
  | _, [] => true
  | lo, (k, b) :: rest => decide (lo ≤ k) && decide (k < 4096) && b != initialByte k && Memory.wfFrom (k + 1) rest

/-- The canonical form: equal memories are equal lists. -/
def Memory.wf (m : Memory) : Bool := Memory.wfFrom 0 m

/-! ## Registers (R20 to R26) -/

/-- `V[x]`: every register number a field can name exists (R20). -/
def readReg (s : State) (x : Nibble) : Byte := s.v[x.toNat]'x.isLt

/-- `V[x] <- b`: no register is hard-wired (R20). -/
def setReg (x : Nibble) (b : Byte) (s : State) : State := { s with v := s.v.set x.toNat b x.isLt }

/-- `VF <- b` (R21, R22). -/
def setFlag (b : Byte) (s : State) : State := setReg 0xF#4 b s

/-- `I <- w` (R26). -/
def setIndex (w : Word) (s : State) : State := { s with i := w }

/-- `pc <- w` (R12). -/
def setPc (w : Word) (s : State) : State := { s with pc := w }

/-- The default advance `pc <- pc + 2` (R12, R24). -/
def advance (s : State) : State := setPc (s.pc + 2#16) s

/-- `pc <- pc + 4` where the skip is taken, else `pc <- pc + 2` (R24, 41_skips.md). -/
def skipIf (taken : Bool) (s : State) : State := setPc (s.pc + if taken then 4#16 else 2#16) s

/-- `V[k] <- bytes[k]` for every `k` the list has a byte for (R145). -/
def loadRegisters (bytes : List Byte) (s : State) : State :=
  { s with v := Vector.ofFn fun k : Fin 16 => bytes.getD k.val s.v[k] }

/-! ## The call stack (R27, R28) -/

/-- `stack[sp] <- w; sp <- sp + 1`, for `sp < 16` (R102). -/
def push (w : Word) (s : State) (room : s.sp.val < 16) : State :=
  { s with stack := s.stack.set s.sp.val w room, sp := ⟨s.sp.val + 1, Nat.succ_lt_succ room⟩ }

/-- `sp <- sp - 1` and the slot `stack[sp]` after it, for `sp > 0`; the slot keeps its value (R27, R100). -/
def pop (s : State) (held : 0 < s.sp.val) : Word × State :=
  have top : s.sp.val - 1 < 16 := by have := s.sp.isLt; omega
  (s.stack[s.sp.val - 1]'top, { s with sp := ⟨s.sp.val - 1, Nat.lt_succ_of_lt top⟩ })

/-! ## The framebuffer (R30, R150, R151) -/

/-- `fb[cx][cy]`. -/
def Framebuffer.cell (fb : Framebuffer) (cx : Fin 64) (cy : Fin 32) : Bool := (fb[cx])[cy]

/-- `fb[cx][cy] <- on`. -/
def Framebuffer.setCell (fb : Framebuffer) (cx : Fin 64) (cy : Fin 32) (on : Bool) : Framebuffer :=
  fb.set cx ((fb[cx]).set cy on)

/-- Every cell off (R150). -/
def Framebuffer.blank : Framebuffer := Vector.replicate 64 (Vector.replicate 32 false)

/-- A column reduced modulo the width (R30, R151). -/
def wrapColumn (n : Nat) : Fin 64 := Fin.ofNat 64 n

/-- A row reduced modulo the height (R30, R151). -/
def wrapRow (n : Nat) : Fin 32 := Fin.ofNat 32 n

/-- A draw in progress: the grid, and whether a lit cell has been turned off so far (R151). -/
structure Canvas where
  fb : Framebuffer
  hit : Bool
  deriving DecidableEq, Repr

/-- Exclusive-or one cell with 1, accumulating the collision (R151). -/
def Canvas.plot (cx : Fin 64) (cy : Fin 32) (c : Canvas) : Canvas :=
  { fb := Framebuffer.setCell c.fb cx cy (!Framebuffer.cell c.fb cx cy), hit := c.hit || Framebuffer.cell c.fb cx cy }

/-- Column `c` of a sprite row: bit `7 - c` of its byte, at `(sx + c) mod 64` (R151). -/
def Canvas.drawBit (sx : Nat) (cy : Fin 32) (bits : Byte) (canvas : Canvas) (c : Nat) : Canvas :=
  if bits.getLsbD (7 - c) then Canvas.plot (wrapColumn (sx + c)) cy canvas else canvas

/-- One sprite row, columns 0 to 7 in order (R151). -/
def Canvas.drawRow (sx : Nat) (cy : Fin 32) (bits : Byte) (canvas : Canvas) : Canvas :=
  (List.range 8).foldl (Canvas.drawBit sx cy bits) canvas

/-- Sprite rows from `row` on, each at `(sy + row) mod 32` (R151). -/
def Canvas.drawRows (sx sy : Nat) : Nat → List Byte → Canvas → Canvas
  | _, [], canvas => canvas
  | row, bits :: rest, canvas =>
    Canvas.drawRows sx sy (row + 1) rest (Canvas.drawRow sx (wrapRow (sy + row)) bits canvas)

/-! ## Output events (R15, R192) -/

/-- The block emits `o`. -/
def emit (o : Output) (s : State) : State := { s with outputs := s.outputs ++ [o] }

/-! ## Faults (R11, R180) -/

/-- `raise Fault(code, info)`: the latch takes the pair and nothing else changes, `pc` included (R11, R180). The spec
gives this effect in full, so it is a next state (log 6). -/
def raise (code : Fault) (info : Nat) (s : State) : Result := .next { s with fault := some (code, info) }

/-- The range check of R59, made before any access: `count` bytes from `base` over the integers. Above 0xFFF it raises
`MEM_RANGE` with the highest address and touches nothing; no access at all cannot fault. -/
def withinMemory (base count : Nat) (effect : State → State) (s : State) : Result :=
  if count ≠ 0 ∧ base + (count - 1) > 0xFFF then raise .memRange (base + (count - 1)) s else .next (effect s)

/-! ## Fetch (R71) -/

/-- `op = MemRead(pc, 1) * 256 + MemRead(pc + 1, 1)`, or none when `pc > 0xFFE` (R71). No alignment is asked (R57). -/
def fetch (s : State) : Option Word :=
  if s.pc.toNat > 0xFFE then none
  else some (readByte s.mem s.pc.toNat ++ readByte s.mem (s.pc.toNat + 1))

end Sys2Proof.Machine
end

