-- ==== Sys2Proof/Machine/Operands.lean ====
section
/-!
DEFINITION. The operand forms (R73): a register, an 8-bit immediate used as it is, a 12-bit immediate zero-extended, the
operand of the two shifts and the base of Bnnn under the quirk parameters (R6), the base address `I` (R52), the decimal
digits of a register (R143) and the keypad (R31).
-/

namespace Sys2Proof.Machine

/-- `nnn` zero-extended to 16 bits, for `pc` and `I` (R73). -/
def extend (nnn : Imm12) : Word := nnn.setWidth 16

/-- The operand of 8xy6 and 8xyE under `SHIFT_SRC` (R128, R130). -/
def shiftOperand (source : ShiftSource) (x y : Nibble) (s : State) : Byte :=
  match source with
  | .vx => readReg s x
  | .vy => readReg s y

/-- The register Bnnn adds under `JUMP_BASE`; `VX` is the register of `op[11:8]`, the top digit of `nnn` (R103). -/
def jumpOffset (base : JumpBase) (nnn : Imm12) (s : State) : Byte :=
  match base with
  | .v0 => readReg s 0x0#4
  | .vx => readReg s (nnn.extractLsb' 8 4)

/-- The base address of a transfer or a sprite: `I` over the integers, never reduced to 12 bits (R26, R59). -/
def baseAddress (s : State) : Nat := s.i.toNat

/-- Hundreds, tens and units, each a whole byte (R143). -/
def decimalDigits (a : Byte) : List Byte := [a / 100#8, (a / 10#8) % 10#8, a % 10#8]

/-- `V[0]` to `V[x]`, ascending (R144). -/
def firstRegisters (x : Nibble) (s : State) : List Byte := s.v.toList.take (x.toNat + 1)

/-- The key `V[x]` names, or none when `V[x] > 15` (R160, R161). -/
def namedKey (s : State) (a : Byte) : Option Bool := s.keys[a.toNat]?

/-- The least `k` in 0 to 15 with `keys[k]` pressed (R165). -/
def lowestKey (s : State) : Option (Fin 16) := (List.finRange 16).find? fun k => s.keys[k]

end Sys2Proof.Machine
end

