-- ==== Sys2Proof/Machine/ControlFlow.lean ====
section
/-!
DEFINITION. Control transfer: 00EE, 1nnn, 2nnn, Bnnn, and the unknown opcode (40_control_flow.md).
-/

namespace Sys2Proof.Machine

/-- 00EE (R100): `STACK_UNDERFLOW` at `sp = 0`, else pop and go to the stored address plus 2. -/
def execRet (s : State) : Result :=
  if held : 0 < s.sp.val then
    let (target, popped) := pop s held
    .next (setPc (target + 2#16) popped)
  else raise .stackUnderflow s.pc.toNat s

/-- 1nnn (R101). -/
def execJp (nnn : Imm12) (s : State) : Result := .next (setPc (extend nnn) s)

/-- 2nnn (R102): `STACK_OVERFLOW` at `sp = 16`, else push the address of this instruction. -/
def execCall (nnn : Imm12) (s : State) : Result :=
  if room : s.sp.val < 16 then .next (setPc (extend nnn) (push s.pc s room))
  else raise .stackOverflow s.pc.toNat s

/-- Bnnn (R103): the sum is not reduced modulo 4096. -/
def execJpV0 (nnn : Imm12) (s : State) : Result :=
  .next (setPc (extend nnn + (jumpOffset Config.jumpBase nnn s).setWidth 16) s)

/-- An unknown opcode (R104, R176): report the word, go on; no fault. -/
def skipUnknown (op : Word) (s : State) : Result := .next (advance (emit (.report s.pc op) s))

end Sys2Proof.Machine
end

