-- ==== Sys2Proof/Machine/Flags.lean ====
section
/-!
DEFINITION. Every flag computation the spec gives `VF` (the table of R22): each is 0 or 1, computed from the operands read
at the start of the instruction (R13).
-/

namespace Sys2Proof.Machine

/-- A condition as the byte `VF` takes. -/
def flagOf (b : Bool) : Byte := if b then 0x01#8 else 0x00#8

/-- 8xy4: 1 if the unwrapped sum is 256 or more (R126). -/
def carryFlag (a b : Byte) : Byte := flagOf (decide (a.toNat + b.toNat ≥ 256))

/-- 8xy5, 8xy7: 0 if the subtrahend is the larger (a borrow), else 1 (R127, R129). -/
def noBorrowFlag (minuend subtrahend : Byte) : Byte := flagOf (decide (subtrahend.toNat ≤ minuend.toNat))

/-- 8xy6: the bit shifted out, bit 0 (R128). -/
def lowBitFlag (a : Byte) : Byte := a &&& 0x01#8

/-- 8xyE: the bit shifted out, bit 7 (R130). -/
def highBitFlag (a : Byte) : Byte := a >>> 7

/-- Fx1E: 1 if the unreduced sum is above 0xFFF (R141). -/
def rangeFlag (sum : Nat) : Byte := flagOf (decide (sum > 0xFFF))

/-- Dxyn: 1 if some lit cell was turned off (R151). -/
def collisionFlag (hit : Bool) : Byte := flagOf hit

end Sys2Proof.Machine
end

