-- ==== Sys2Proof/Machine/Display.lean ====
section
/-!
DEFINITION. The framebuffer instructions: 00E0, Dxyn (44_display.md).
-/

namespace Sys2Proof.Machine

/-- 00E0 (R150): every cell off; `VF` is not written and nothing is presented. -/
def execCls (s : State) : Result := .next (advance { s with fb := Framebuffer.blank })

/-- The sprite composited with its top left at (`sx`, `sy`), `VF` the collision, then `Present()` (R151). -/
def compose (sx sy : Nat) (sprite : List Byte) (s : State) : State :=
  let canvas := Canvas.drawRows sx sy 0 sprite { fb := s.fb, hit := false }
  emit .present (setFlag (collisionFlag canvas.hit) { s with fb := canvas.fb })

/-- Dxyn (R151): `V[x]` and `V[y]` are read before `VF` is cleared; with `n = 0` no byte is read and no fault is possible. -/
def execDrw (x y n : Nibble) (s : State) : Result :=
  withinMemory (baseAddress s) n.toNat
    (fun u => advance (compose (readReg s x).toNat (readReg s y).toNat (readBytes u.mem (baseAddress s) n.toNat) u)) s

end Sys2Proof.Machine
end

