-- ==== Sys2Proof/Machine/IndexMemory.lean ====
section
/-!
DEFINITION. The index register and memory transfers: Annn, Fx1E, Fx29, Fx33, Fx55, Fx65 (43_index_memory.md). `I` is never
modified by a transfer (R14), and a transfer that would reach above 0xFFF raises `MEM_RANGE` and touches nothing (R59).
-/

namespace Sys2Proof.Machine

/-- Annn (R140). -/
def execLdI (nnn : Imm12) (s : State) : Result := .next (advance (setIndex (extend nnn) s))

/-- Fx1E (R141): `I` keeps the low 16 bits, the flag comes from the unreduced sum. -/
def execAddI (x : Nibble) (s : State) : Result :=
  let sum := s.i.toNat + (readReg s x).toNat
  .next (advance (setFlag (rangeFlag sum) (setIndex (BitVec.ofNat 16 sum) s)))

/-- Fx29 (R142): all 8 bits of `V[x]` are multiplied. -/
def execLdF (x : Nibble) (s : State) : Result :=
  .next (advance (setIndex (BitVec.ofNat 16 ((readReg s x).toNat * 5)) s))

/-- The bytes stored from `I` on, then the default advance, under the range check (R59, R143, R144). -/
def storeAtIndex (bytes : List Byte) (s : State) : Result :=
  withinMemory (baseAddress s) bytes.length
    (fun u => advance { u with mem := writeBytes u.mem (baseAddress s) bytes }) s

/-- Fx33 (R143). -/
def execLdB (x : Nibble) (s : State) : Result := storeAtIndex (decimalDigits (readReg s x)) s

/-- Fx55 (R144). -/
def execStoreRegs (x : Nibble) (s : State) : Result := storeAtIndex (firstRegisters x s) s

/-- Fx65 (R145): registers above `x` keep their values. -/
def execLoadRegs (x : Nibble) (s : State) : Result :=
  withinMemory (baseAddress s) (x.toNat + 1)
    (fun u => advance (loadRegisters (readBytes u.mem (baseAddress s) (x.toNat + 1)) u)) s

end Sys2Proof.Machine
end

