-- ==== Sys2Proof/Machine/LoadAlu.lean ====
section
/-!
DEFINITION. Register loads and the 8-bit ALU: 6xnn, 7xnn, 8xy0 to 8xy7, 8xyE, Cxnn (42_load_alu.md). Operands are read
before any write and the writes stand in the order of the rule, the later one winning at `x = 0xF` (R13).
-/

namespace Sys2Proof.Machine

/-- `V[x] <- result`, then the default advance. -/
def writeResult (x : Nibble) (result : Byte) (s : State) : Result := .next (advance (setReg x result s))

/-- `V[x] <- result`, `VF <- flag` in that order: at `x = 0xF` the flag stands (R126, R127, R129). -/
def writeResultThenFlag (x : Nibble) (result flag : Byte) (s : State) : Result :=
  .next (advance (setFlag flag (setReg x result s)))

/-- `VF <- flag`, `V[x] <- result` in that order: at `x = 0xF` the result stands (R128, R130). -/
def writeFlagThenResult (x : Nibble) (flag result : Byte) (s : State) : Result :=
  .next (advance (setReg x result (setFlag flag s)))

/-- 6xnn (R120). -/
def execLdImm (x : Nibble) (nn : Byte) (s : State) : Result := writeResult x nn s

/-- 7xnn (R121): wraps modulo 256, no flag. -/
def execAddImm (x : Nibble) (nn : Byte) (s : State) : Result := writeResult x (readReg s x + nn) s

/-- 8xy0 (R122). -/
def execLdReg (x y : Nibble) (s : State) : Result := writeResult x (readReg s y) s

/-- 8xy1 (R123): no flag. -/
def execOrReg (x y : Nibble) (s : State) : Result := writeResult x (readReg s x ||| readReg s y) s

/-- 8xy2 (R124): no flag. -/
def execAndReg (x y : Nibble) (s : State) : Result := writeResult x (readReg s x &&& readReg s y) s

/-- 8xy3 (R125): no flag. -/
def execXorReg (x y : Nibble) (s : State) : Result := writeResult x (readReg s x ^^^ readReg s y) s

/-- 8xy4 (R126). -/
def execAddReg (x y : Nibble) (s : State) : Result :=
  let a := readReg s x
  let b := readReg s y
  writeResultThenFlag x (a + b) (carryFlag a b) s

/-- 8xy5 (R127). -/
def execSubReg (x y : Nibble) (s : State) : Result :=
  let a := readReg s x
  let b := readReg s y
  writeResultThenFlag x (a - b) (noBorrowFlag a b) s

/-- 8xy6 (R128). -/
def execShr (x y : Nibble) (s : State) : Result :=
  let a := shiftOperand Config.shiftSource x y s
  writeFlagThenResult x (lowBitFlag a) (a >>> 1) s

/-- 8xy7 (R129). -/
def execSubnReg (x y : Nibble) (s : State) : Result :=
  let a := readReg s x
  let b := readReg s y
  writeResultThenFlag x (b - a) (noBorrowFlag b a) s

/-- 8xyE (R130). -/
def execShl (x y : Nibble) (s : State) : Result :=
  let a := shiftOperand Config.shiftSource x y s
  writeFlagThenResult x (highBitFlag a) (a <<< 1) s

/-- Cxnn with `Rnd()` supplying `r` (R131); the draw is counted, so that the next is a fresh one (log 1). -/
def drawRandom (r : Byte) (x : Nibble) (nn : Byte) (s : State) : Result :=
  writeResult x (r &&& nn) { s with draws := s.draws + 1 }

/-- Cxnn (R131): the byte is a free value. -/
def execRnd (x : Nibble) (nn : Byte) (s : State) : Result := drawRandom (Config.randomByte s.draws) x nn s

end Sys2Proof.Machine
end

