-- ==== Sys2Proof/Machine/Skips.lean ====
section
/-!
DEFINITION. The conditional skips on registers: 3xnn, 4xnn, 5xy0, 9xy0 (41_skips.md).
-/

namespace Sys2Proof.Machine

/-- 3xnn (R110). -/
def execSeImm (x : Nibble) (nn : Byte) (s : State) : Result := .next (skipIf (readReg s x == nn) s)

/-- 4xnn (R111). -/
def execSneImm (x : Nibble) (nn : Byte) (s : State) : Result := .next (skipIf (readReg s x != nn) s)

/-- 5xy0 (R112). -/
def execSeReg (x y : Nibble) (s : State) : Result := .next (skipIf (readReg s x == readReg s y) s)

/-- 9xy0 (R113). -/
def execSneReg (x y : Nibble) (s : State) : Result := .next (skipIf (readReg s x != readReg s y) s)

end Sys2Proof.Machine
end

