-- ==== Sys2Proof/Machine/TimersKeypad.lean ====
section
/-!
DEFINITION. The keypad and timer instructions: Ex9E, ExA1, Fx07, Fx0A, Fx15, Fx18 (45_timers_keypad.md).
-/

namespace Sys2Proof.Machine

/-- Skip where the key `V[x]` names is in the state asked for; `KEY_RANGE` when `V[x] > 15` (R160, R161, R175). -/
def skipOnKey (x : Nibble) (wanted : Bool) (s : State) : Result :=
  match namedKey s (readReg s x) with
  | none => raise .keyRange (readReg s x).toNat s
  | some pressed => .next (skipIf (pressed == wanted) s)

/-- Ex9E (R160). -/
def execSkp (x : Nibble) (s : State) : Result := skipOnKey x true s

/-- ExA1 (R161). -/
def execSknp (x : Nibble) (s : State) : Result := skipOnKey x false s

/-- Fx07 (R162). -/
def execLdVxDt (x : Nibble) (s : State) : Result := .next (advance (setReg x s.dt s))

/-- Fx0A (R165): with no key down nothing is written and `pc` still points here; else the lowest key down. -/
def execLdVxK (x : Nibble) (s : State) : Result :=
  match lowestKey s with
  | none => .next s
  | some k => .next (advance (setReg x (BitVec.ofNat 8 k.val) s))

/-- Fx15 (R163). -/
def execLdDtVx (x : Nibble) (s : State) : Result := .next (advance { s with dt := readReg s x })

/-- Fx18 (R164). -/
def execLdStVx (x : Nibble) (s : State) : Result := .next (advance { s with st := readReg s x })

end Sys2Proof.Machine
end

