-- ==== Sys2Proof/Machine/Step.lean ====
section
/-!
DEFINITION. One `Step` (R75): the latch, the fetch, the decode, then the instruction's rule, in the priority of R179.
-/

namespace Sys2Proof.Machine

/-- A fetched word: the instruction it is, or the unknown opcode's report and skip (R75, R104). -/
def execWord (op : Word) (s : State) : Host.Outcome State Fault Refusal :=
  match decodeWord op with
  | some i => exec i s
  | none => skipUnknown op s

/-- `Step()` of R75. -/
def step (s : State) : Host.Outcome State Fault Refusal :=
  match s.fault with
  | some _ => .next s
  | none =>
    match fetch s with
    | none => raise .fetchRange s.pc.toNat s
    | some op => execWord op s

/-- `s` with the table word `w` where `step` fetches next: stored big-endian at `pc` (R55), the fault latch open. A `pc`
above 0xFFE holds no instruction, so it is first put at 0x200 (log 23). -/
def State.withFetchWord (s : State) (nbits w : Nat) : State :=
  let op : Word := BitVec.ofNat 16 (w % 2 ^ nbits)
  let at' : Word := if s.pc.toNat > 0xFFE then Config.progBase else s.pc
  { s with pc := at', fault := none, mem := writeBytes s.mem at'.toNat [highByte op, lowByte op] }

end Sys2Proof.Machine
end

