-- ==== Sys2Proof/Assembly.lean ====
section
/-!
DEFINITION. The assembler syntax the spec adopts for listings (R80, R81): the printer of an instruction, and the image of
a listing of instructions, labels and `DB` bytes. No rule of the machine uses it; the mnemonics are the spec's general
knowledge (D22; log 28).
-/

namespace Sys2Proof.Assembly

/-- A hexadecimal digit, upper case. -/
def hexDigit (n : Nat) : String := ["0", "1", "2", "3", "4", "5", "6", "7", "8", "9", "A", "B", "C", "D", "E", "F"].getD n "?"

/-- The `digits` low hexadecimal digits of `n`. -/
def hexDigits : Nat → Nat → String
  | 0, _ => ""
  | digits + 1, n => hexDigits digits (n / 16) ++ hexDigit (n % 16)

/-- An immediate, hexadecimal with `0x` (R80). -/
def hex (digits n : Nat) : String := "0x" ++ hexDigits digits n

/-- A count, in decimal: R80 allows either base, and the listings write Dxyn's count so. -/
def decimal (n : Nibble) : String := if n.toNat < 10 then hexDigit n.toNat else "1" ++ hexDigit (n.toNat - 10)

/-- A register, `V0` to `VF` (R80). -/
def register (x : Nibble) : String := "V" ++ hexDigit x.toNat

/-- A mnemonic with one operand. -/
def unary (mnemonic a : String) : String := mnemonic ++ " " ++ a

/-- A mnemonic with two operands. -/
def binary (mnemonic a b : String) : String := mnemonic ++ " " ++ a ++ ", " ++ b

/-- The line of an instruction: `MNEMONIC operand, operand`, with the mnemonics of R75's table (R80). -/
def print : Instr → String
  | .cls => "CLS"
  | .ret => "RET"
  | .jp nnn => unary "JP" (hex 3 nnn.toNat)
  | .call nnn => unary "CALL" (hex 3 nnn.toNat)
  | .seImm x nn => binary "SE" (register x) (hex 2 nn.toNat)
  | .sneImm x nn => binary "SNE" (register x) (hex 2 nn.toNat)
  | .seReg x y => binary "SE" (register x) (register y)
  | .ldImm x nn => binary "LD" (register x) (hex 2 nn.toNat)
  | .addImm x nn => binary "ADD" (register x) (hex 2 nn.toNat)
  | .ldReg x y => binary "LD" (register x) (register y)
  | .orReg x y => binary "OR" (register x) (register y)
  | .andReg x y => binary "AND" (register x) (register y)
  | .xorReg x y => binary "XOR" (register x) (register y)
  | .addReg x y => binary "ADD" (register x) (register y)
  | .subReg x y => binary "SUB" (register x) (register y)
  | .shr x y => binary "SHR" (register x) (register y)
  | .subnReg x y => binary "SUBN" (register x) (register y)
  | .shl x y => binary "SHL" (register x) (register y)
  | .sneReg x y => binary "SNE" (register x) (register y)
  | .ldI nnn => binary "LD" "I" (hex 3 nnn.toNat)
  | .jpV0 nnn => binary "JP" "V0" (hex 3 nnn.toNat)
  | .rnd x nn => binary "RND" (register x) (hex 2 nn.toNat)
  | .drw x y n => binary "DRW" (register x) (register y) ++ ", " ++ decimal n
  | .skp x => unary "SKP" (register x)
  | .sknp x => unary "SKNP" (register x)
  | .ldVxDt x => binary "LD" (register x) "DT"
  | .ldVxK x => binary "LD" (register x) "K"
  | .ldDtVx x => binary "LD" "DT" (register x)
  | .ldStVx x => binary "LD" "ST" (register x)
  | .addI x => binary "ADD" "I" (register x)
  | .ldF x => binary "LD" "F" (register x)
  | .ldB x => binary "LD" "B" (register x)
  | .storeRegs x => binary "LD" "[I]" (register x)
  | .loadRegs x => binary "LD" (register x) "[I]"

/-- `SHR Vx` and `SHL Vx` with one operand encode `y = 0` (R80). -/
def shrOne (x : Nibble) : Instr := .shr x 0x0#4
/-- `SHR Vx` and `SHL Vx` with one operand encode `y = 0` (R80). -/
def shlOne (x : Nibble) : Instr := .shl x 0x0#4

/-- A line of a listing (R80, R81); a label stands for the address of the next instruction, or of the next `DB`
byte (log 28). -/
inductive Line where
  | instr (i : Instr)
  | label (name : String)
  /-- An instruction whose `nnn` is a label. -/
  | toLabel (i : Imm12 → Instr) (name : String)
  /-- `DB b, b, ...`: the bytes at the current address. -/
  | db (bytes : List Byte)

/-- How many bytes a line takes. -/
def Line.size : Line → Nat
  | .instr _ => 2
  | .label _ => 0
  | .toLabel _ _ => 2
  | .db bytes => bytes.length

/-- The address of a label in a listing that starts at `a`. DESIGN CHOICE, twice, safe (log 28): a label directly before a
`DB` stands for the address of its first byte, where R80 speaks of the next instruction only, and of two labels of one
name the first counts, on which the spec is silent. -/
def addressOf (name : String) : Nat → List Line → Option Nat
  | _, [] => none
  | a, .label other :: rest => if other = name then some a else addressOf name a rest
  | a, line :: rest => addressOf name (a + line.size) rest

/-- The bytes of a line, its labels looked up in the whole listing from `PROG_BASE`; none for a label that is not there.
The spec does not say what `nnn` a label above 0xFFF assembles to (one at the end of a full image is 0x1000): there is no
such line here, DESIGN CHOICE (log 28), safe. -/
def Line.bytes (listing : List Line) : Line → Option (List Byte)
  | .instr i => some (encodeBytes i)
  | .label _ => some []
  | .toLabel i name => ((addressOf name Config.progBase.toNat listing).filter (· ≤ 0xFFF)).map fun a =>
    encodeBytes (i (BitVec.ofNat 12 a))
  | .db bytes => some bytes

/-- The program image of a listing: the bytes of its lines in order, no header (R81). -/
def image (listing : List Line) : Option (List Byte) := (listing.mapM (Line.bytes listing)).map List.flatten

end Sys2Proof.Assembly
end

