-- ==== Sys2Proof/Machine/Events.lean ====
section
/-!
DEFINITION. The host's events beside `Step` (R192): `PowerOn`, `Load`, `Reset`, `TimerTick`, `SetKeys`, each atomic and
never inside a `Step`; the tone output; and the lifecycle the host keeps (R192, R201, R203).
-/

namespace Sys2Proof.Machine

/-- `PowerOn` (R200). It does not set the keys, which are the host's (R31); the draws and the emitted events are the
model's record and go on. -/
def powerOn (s : State) : State := { State.reset with keys := s.keys, draws := s.draws, outputs := s.outputs }

/-- `Reset` (R202): what `PowerOn` sets, but for memory, which keeps every byte. The only exit from a fault (R181). -/
def hostReset (s : State) : State := { powerOn s with mem := s.mem }

/-- `Load(image)` (R201): verbatim from 0x200, or refused whole above 3584 bytes (R177). -/
def load (image : List Byte) (s : State) : Result :=
  if wellFormedImage image then .next { s with mem := writeBytes s.mem Config.progBase.toNat image }
  else .refused .imageTooLarge

/-- A timer after a tick: never below 0 (R184). -/
def tickTimer (t : Byte) : Byte := if t.toNat > 0 then t - 1#8 else t

/-- `TimerTick` (R184): it acts whether or not the fault latch is set. -/
def timerTick (s : State) : State := { s with dt := tickTimer s.dt, st := tickTimer s.st }

/-- `SetKeys(k)` (R31, R192). -/
def setKeys (k : Vector Bool 16) (s : State) : State := { s with keys := k }

/-- The tone output, `ST > 0` (R187). -/
def tone (s : State) : Bool := decide (s.st.toNat > 0)

/-- The host's events (R192). -/
inductive Event where
  | powerOn
  | load (image : List Byte)
  | reset
  | step
  | timerTick
  | setKeys (k : Vector Bool 16)
  deriving DecidableEq, Repr

/-- What an event does to the machine (R192). -/
def applyEvent (e : Event) (s : State) : Result :=
  match e with
  | .powerOn => .next (powerOn s)
  | .load image => load image s
  | .reset => .next (hostReset s)
  | .step => step s
  | .timerTick => .next (timerTick s)
  | .setKeys k => .next (setKeys k s)

/-- Where the host stands in the lifecycle `PowerOn`, at most one successful `Load`, then the rest (R192, R203; log 21):
before power-on, with no image loaded yet, with one, or after a `Load` that failed, when no `Step` may follow (R177). -/
inductive Phase where
  | off
  | poweredOn
  | launched
  | loadFailed
  deriving DecidableEq, Repr

/-- The phase after an event that the lifecycle allows and the machine takes, or none (R177, R192, R201, R203; log 21). With
no image loaded yet only `Step` and a second `PowerOn` are barred; after a `Load` that failed a second `Load` is too. -/
def Phase.after (p : Phase) (e : Event) : Option Phase :=
  match p with
  | .off =>
    match e with
    | .powerOn => some .poweredOn
    | .load _ | .reset | .step | .timerTick | .setKeys _ => none
  | .poweredOn =>
    match e with
    | .load _ => some .launched
    | .reset | .timerTick | .setKeys _ => some .poweredOn
    | .powerOn | .step => none
  | .launched =>
    match e with
    | .reset | .step | .timerTick | .setKeys _ => some .launched
    | .powerOn | .load _ => none
  | .loadFailed =>
    match e with
    | .reset | .timerTick | .setKeys _ => some .loadFailed
    | .powerOn | .load _ | .step => none

/-- The phase after a `Load` that failed, which only a powered-on block with no image can meet (R177, R201). -/
def Phase.afterFailedLoad : Phase → Phase
  | .off => .off
  | .poweredOn => .loadFailed
  | .launched => .launched
  | .loadFailed => .loadFailed

/-- The host's events in order, ending at the first that the lifecycle refuses. A `Load` that fails places no byte, and the
host goes on from the same state with a block that is never stepped (R177, R201). -/
def runEvents : Phase → List Event → State → Result
  | _, [], s => .next s
  | p, e :: rest, s =>
    match Phase.after p e with
    | none => .refused .hostOutOfOrder
    | some q =>
      match applyEvent e s with
      | .next t => runEvents q rest t
      | .fault r => .fault r
      | .refused .imageTooLarge => runEvents (Phase.afterFailedLoad p) rest s
      | .refused r => .refused r

end Sys2Proof.Machine
end

