-- ==== Sys2Proof/Safety.lean ====
section
/-!
DEFINITION. The terms claims are stated in: which parts of the state two states agree on (frames), the word and the
instruction at the program counter, the invariant of the machine, and which runs are safe.
-/

namespace Sys2Proof.Machine

/-! ## Frames -/

/-- The parts of the state beside `pc`. -/
inductive Part where
  | registers
  | index
  | stack
  | delay
  | sound
  | screen
  | keys
  | latch
  | memory
  | draws
  | outputs
  deriving DecidableEq, Repr

/-- `s` and `t` agree on a part: every register reads the same, every byte of memory reads the same, and so on. -/
def SamePart (s t : State) : Part → Prop
  | .registers => ∀ r, readReg t r = readReg s r
  | .index => t.i = s.i
  | .stack => t.sp = s.sp ∧ t.stack = s.stack
  | .delay => t.dt = s.dt
  | .sound => t.st = s.st
  | .screen => ∀ cx cy, Framebuffer.cell t.fb cx cy = Framebuffer.cell s.fb cx cy
  | .keys => t.keys = s.keys
  | .latch => t.fault = s.fault
  | .memory => ∀ a, readByte t.mem a = readByte s.mem a
  | .draws => t.draws = s.draws
  | .outputs => t.outputs = s.outputs

/-- Nothing but `pc` and the parts named may differ between `s` and `t`. -/
def OnlyChanges (parts : List Part) (s t : State) : Prop := ∀ p, p ∉ parts → SamePart s t p

/-- Every register but the ones named reads the same. -/
def RegistersKeptBut (changed : List Nibble) (s t : State) : Prop :=
  ∀ r, r ∉ changed → readReg t r = readReg s r

/-- Every byte outside the `n` bytes from `lo` on reads the same. -/
def MemoryKeptOutside (lo n : Nat) (s t : State) : Prop :=
  ∀ a, a < lo ∨ lo + n ≤ a → readByte t.mem a = readByte s.mem a

/-! ## What a step is about to run -/

/-- `op` is the word at `pc`, big-endian over the integers, `pc` being in range (R55, R71). -/
def WordAtPc (s : State) (op : Word) : Prop :=
  s.pc.toNat ≤ 0xFFE ∧
    op.toNat = 256 * (readByte s.mem s.pc.toNat).toNat + (readByte s.mem (s.pc.toNat + 1)).toNat

/-- What the byte at `a` is once `bytes` are stored from `base` on (R56, R60). -/
def byteAfterStore (s : State) (base : Nat) (bytes : List Byte) (a : Nat) : Byte :=
  if base ≤ a then bytes.getD (a - base) (readByte s.mem a) else readByte s.mem a

/-- `i` is the instruction at `pc`. -/
def InstrAtPc (s : State) (i : Instr) : Prop := ∃ op, WordAtPc s op ∧ decodeWord op = some i

/-- The condition of each fault and the info it records (the table of R170). -/
def FaultCondition (s : State) : Fault → Nat → Prop
  | .fetchRange, info => s.pc.toNat > 0xFFE ∧ info = s.pc.toNat
  | .memRange, info => info > 0xFFF ∧
      ((∃ x, InstrAtPc s (.ldB x) ∧ info = s.i.toNat + 2) ∨
       (∃ x, InstrAtPc s (.storeRegs x) ∧ info = s.i.toNat + x.toNat) ∨
       (∃ x, InstrAtPc s (.loadRegs x) ∧ info = s.i.toNat + x.toNat) ∨
       (∃ x y n, InstrAtPc s (.drw x y n) ∧ n ≠ 0x0#4 ∧ info + 1 = s.i.toNat + n.toNat))
  | .stackOverflow, info => (∃ nnn, InstrAtPc s (.call nnn)) ∧ s.sp.val = 16 ∧ info = s.pc.toNat
  | .stackUnderflow, info => InstrAtPc s .ret ∧ s.sp.val = 0 ∧ info = s.pc.toNat
  | .keyRange, info => ∃ x, (InstrAtPc s (.skp x) ∨ InstrAtPc s (.sknp x)) ∧
      (readReg s x).toNat > 15 ∧ info = (readReg s x).toNat

/-- The sprite of a Dxyn lights the cell (`cx`, `cy`): some row byte has the 1 bit addressed there (R151, R152). -/
def SpriteCovers (mem : Memory) (base sx sy n : Nat) (cx : Fin 64) (cy : Fin 32) : Prop :=
  ∃ row < n, ∃ c < 8, (readByte mem (base + row)).getLsbD (7 - c) = true ∧
    cx.val = (sx + c) % 64 ∧ cy.val = (sy + row) % 32

/-! ## The invariant -/

/-- What every step and every host event keeps: memory in canonical form, `pc` never above 0x10FE (R25), and only
addresses that were fetched from on the call stack (R34). -/
structure State.Inv (s : State) : Prop where
  memory : Memory.wf s.mem = true
  counter : s.pc.toNat ≤ 0x10FE
  stack : ∀ k : Fin 16, (s.stack[k]).toNat ≤ 0xFFE

/-! ## Runs -/

/-- The launch state of R204: `PowerOn` and a successful `Load`, with whatever keys the host has down. -/
def launchState (image : List Byte) (keys : Vector Bool 16) : State :=
  { State.reset with keys := keys, mem := writeBytes [] Config.progBase.toNat image }

/-- Instructions executed one after another, wherever they stand in memory. -/
def execAll : List Instr → State → Result
  | [], s => .next s
  | i :: rest, s =>
    match exec i s with
    | .next t => execAll rest t
    | .fault r => .fault r
    | .refused r => .refused r

/-- A run a claim accepts: the host's events go through and no fault is latched at the end (R180). -/
def SafeRun (events : List Event) (s t : State) : Prop :=
  runEvents .launched events s = .next t ∧ t.fault = none

end Sys2Proof.Machine
end

