-- ==== Sys2Proof/Certificates/Slice0/Obligations.lean ====
section
/-!
DEFINITION. The statements for the provers, each formalising what a rule of the spec says an instruction, an event or the
whole machine does. `OnlyChanges parts s t` is the frame: nothing but `pc` and the parts named differs.
-/

open Sys2Proof Sys2Proof.Machine

/-! ## Decoding and the Step procedure -/

/-- Decode vectors of 95_test_vectors.md, section 2.8: instructions of every family, and unknown words of every set of
R77. That 01E0, 5AB1 and 9ABF do not decode is the spec's decision D4, exact patterns (log 10). -/
def Obligations.SampleWordsDecode : Prop :=
  decodeWord 0x00E0#16 = some .cls ∧ decodeWord 0x00EE#16 = some .ret ∧
  decodeWord 0x2ABC#16 = some (.call 0xABC#12) ∧ decodeWord 0x3A7F#16 = some (.seImm 0xA#4 0x7F#8) ∧
  decodeWord 0x8ABE#16 = some (.shl 0xA#4 0xB#4) ∧ decodeWord 0xA123#16 = some (.ldI 0x123#12) ∧
  decodeWord 0xD125#16 = some (.drw 0x1#4 0x2#4 0x5#4) ∧ decodeWord 0xE3A1#16 = some (.sknp 0x3#4) ∧
  decodeWord 0xF365#16 = some (.loadRegs 0x3#4) ∧
  decodeWord 0x01E0#16 = none ∧ decodeWord 0x5AB1#16 = none ∧ decodeWord 0x8AB8#16 = none ∧
  decodeWord 0x9ABF#16 = none ∧ decodeWord 0xE39F#16 = none ∧ decodeWord 0xF356#16 = none

/-- Decoding the encoding of any instruction gives it back, at every value of every operand, from its word and from its
bytes in memory order (R72 to R75). -/
def Obligations.DecodeInvertsEncode : Prop :=
  ∀ i : Instr, decodeWord (encode i) = some i ∧
    ∀ rest : List Byte, decodeBytes (encodeBytes i ++ rest) = .ok (i, rest)

/-- A word decodes to one instruction only through that instruction's own encoding (R72 to R75). That no other word
decodes (5xyN, 9xyN with `N` not 0, 01E0) is the spec's decision D4, exact patterns (log 10). -/
def Obligations.EncodeInvertsDecode : Prop := ∀ (op : Word) (i : Instr), decodeWord op = some i → encode i = op

/-- The decoder, written from the patterns, and the opcode map, written from the masks and matches, agree: a word is an
instruction exactly where a row covers it, it decodes to an instruction of that row, and the 34 rows are disjoint
(R75; exact patterns are the spec's decision D4, log 10). -/
def Obligations.DecoderAgreesWithOpcodeMap : Prop :=
  (∀ op, (decodeWord op).isSome = wellFormedWord op) ∧
  (∀ op i r, decodeWord op = some i → r ∈ opcodeMap → r.covers op = true → i.row = r) ∧
  opcodeMap.length = 34 ∧ opcodeMap.Pairwise (fun r q => r.disjoint q = true)

/-- A `Step` with no fault latched runs the instruction whose two bytes stand at `pc`, the first being the high byte: no
more and no less than `exec` of it (R71, R75). -/
def Obligations.StepRunsDecodedInstruction : Prop :=
  ∀ (s : State) (op : Word) (i : Instr), s.fault = none → WordAtPc s op → decodeWord op = some i → step s = exec i s

/-- The checks of `Step` come in the order latch, fetch range, decode: a latched block does nothing, a `pc` above 0xFFE
latches `FETCH_RANGE` with `pc` and changes nothing else (R171, R179, R180; the latch is the spec's decision D5, the
fetch range D7, the order D27; logs 6 and 11). -/
def Obligations.StepChecksLatchThenFetchRange : Prop :=
  ∀ s : State,
    (s.fault ≠ none → step s = .next s) ∧
    (s.fault = none → s.pc.toNat > 0xFFE → step s = .next { s with fault := some (.fetchRange, s.pc.toNat) }) ∧
    (s.fault = none → s.pc.toNat ≤ 0xFFE → ∃ op, WordAtPc s op ∧ step s = execWord op s)

/-- A word that no row of the opcode map covers is reported with its address and skipped: `pc` moves by 2, nothing else
changes, no fault is latched (R77, R104, R176; what is unknown is decision D4, what the report holds D21; logs 10, 22). -/
def Obligations.UnknownWordIsReportedAndSkipped : Prop :=
  ∀ (s : State) (op : Word), s.fault = none → WordAtPc s op → wellFormedWord op = false →
    ∃ t, step s = .next t ∧ t.pc.toNat = s.pc.toNat + 2 ∧ t.outputs = s.outputs ++ [.report s.pc op] ∧
      OnlyChanges [.outputs] s t

/-- A table word placed where `step` fetches next is what the next `step` runs, whatever the state was (log 23). -/
def Obligations.PlacedTableWordRunsNext : Prop :=
  ∀ (s : State) (w : Nat), w < 65536 → Memory.wf s.mem = true →
    step (s.withFetchWord 16 w) = execWord (BitVec.ofNat 16 w) (s.withFetchWord 16 w) ∧
    Memory.wf (s.withFetchWord 16 w).mem = true ∧
    MemoryKeptOutside (s.withFetchWord 16 w).pc.toNat 2 s (s.withFetchWord 16 w)

/-! ## The whole machine -/

/-- Every instruction in every state, and every `Step`, ends in a next state: a fault is latched, never a stop of the
model (R11, R78, R180; log 6). -/
def Obligations.EveryStepAnswersNextState : Prop :=
  (∀ (i : Instr) (s : State), ∃ t, exec i s = .next t) ∧ ∀ s : State, ∃ t, step s = .next t

/-- Faults are precise and the table of R170 is complete: when a `Step` latches a fault, nothing but the latch differs,
and the code and info are those of one condition of the table; and where a condition of the table holds, the `Step`
latches exactly that (R170 to R175, R180; the mechanism is the spec's decision D5 with D6, D7, D8, D10; log 6). -/
def Obligations.FaultsArePreciseAndComplete : Prop :=
  ∀ (s t : State), s.fault = none → step s = .next t →
    (∀ code info, t.fault = some (code, info) → FaultCondition s code info ∧ t = { s with fault := some (code, info) }) ∧
    (∀ code info, FaultCondition s code info → t.fault = some (code, info))

/-- Each part of the state is written only by the instructions the rules name as its writers; the keys by none (R14, R22,
R27 to R31, R34, R52, R170; the closed effect is the spec's decision D14, log 18). The last two parts are the model's own
fields: the draws (log 1), and the outputs (log 7), which 00E0 does not write (decision D20, log 22). -/
def Obligations.StateIsWrittenOnlyByItsWriters : Prop :=
  ∀ (i : Instr) (s t : State), exec i s = .next t →
    t.keys = s.keys ∧
    (∀ r, readReg t r ≠ readReg s r →
      (∃ nn, i = .ldImm r nn ∨ i = .addImm r nn ∨ i = .rnd r nn) ∨
      (∃ y, i = .ldReg r y ∨ i = .orReg r y ∨ i = .andReg r y ∨ i = .xorReg r y) ∨
      i = .ldVxDt r ∨ i = .ldVxK r ∨ (∃ x, i = .loadRegs x ∧ r.toNat ≤ x.toNat) ∨
      (∃ x y, (i = .addReg x y ∨ i = .subReg x y ∨ i = .shr x y ∨ i = .subnReg x y ∨ i = .shl x y) ∧
        (r = x ∨ r = 0xF#4)) ∨
      (r = 0xF#4 ∧ ((∃ x, i = .addI x) ∨ ∃ x y n, i = .drw x y n))) ∧
    (t.fault ≠ s.fault → i = .ret ∨ (∃ nnn, i = .call nnn) ∨ (∃ x, i = .skp x ∨ i = .sknp x) ∨
      (∃ x, i = .ldB x ∨ i = .storeRegs x ∨ i = .loadRegs x) ∨ ∃ x y n, i = .drw x y n) ∧
    (t.fb ≠ s.fb → i = .cls ∨ ∃ x y n, i = .drw x y n) ∧
    (t.i ≠ s.i → (∃ nnn, i = .ldI nnn) ∨ (∃ x, i = .addI x) ∨ ∃ x, i = .ldF x) ∧
    (t.dt ≠ s.dt → ∃ x, i = .ldDtVx x) ∧
    (t.st ≠ s.st → ∃ x, i = .ldStVx x) ∧
    (t.sp ≠ s.sp → i = .ret ∨ ∃ nnn, i = .call nnn) ∧
    (t.stack ≠ s.stack → ∃ nnn, i = .call nnn) ∧
    (t.mem ≠ s.mem → (∃ x, i = .ldB x) ∨ ∃ x, i = .storeRegs x) ∧
    (t.draws ≠ s.draws → ∃ x nn, i = .rnd x nn) ∧
    (t.outputs ≠ s.outputs → ∃ x y n, i = .drw x y n)

/-- `VF` changes only under the seven instructions that write it as a flag, or where `x = 0xF` names it as the
destination (R22, R14; decision D14, log 18). -/
def Obligations.FlagIsWrittenOnlyByItsWriters : Prop :=
  ∀ (i : Instr) (s t : State), exec i s = .next t → readReg t 0xF#4 ≠ readReg s 0xF#4 →
    (∃ x y, i = .addReg x y ∨ i = .subReg x y ∨ i = .shr x y ∨ i = .subnReg x y ∨ i = .shl x y) ∨
    (∃ x, i = .addI x) ∨ (∃ x y n, i = .drw x y n) ∨
    (∃ nn, i = .ldImm 0xF#4 nn ∨ i = .addImm 0xF#4 nn ∨ i = .rnd 0xF#4 nn) ∨
    (∃ y, i = .ldReg 0xF#4 y ∨ i = .orReg 0xF#4 y ∨ i = .andReg 0xF#4 y ∨ i = .xorReg 0xF#4 y) ∨
    i = .ldVxDt 0xF#4 ∨ i = .ldVxK 0xF#4 ∨ i = .loadRegs 0xF#4

/-- The invariant holds after power-on (R37, R200). -/
def Obligations.PowerOnStateMeetsInvariant : Prop := State.reset.Inv

/-- Every `Step` keeps memory canonical, `pc` at most 0x10FE (the spec's inference in R25), and only fetched addresses on
the call stack (R34's table). -/
def Obligations.StepKeepsInvariant : Prop := ∀ s t : State, s.Inv → step s = .next t → t.Inv

/-- Every event of the host keeps the invariant, wherever it falls (R192). -/
def Obligations.HostEventsKeepInvariant : Prop :=
  ∀ (e : Event) (s t : State), s.Inv → applyEvent e s = .next t → t.Inv

/-- The sound timer is seen by no instruction (R29, R187): two machines that differ only in `ST` step, given the same random
byte (log 1), to machines that differ at most in `ST`, and still by the same values unless an Fx18 wrote it. -/
def Obligations.SoundTimerIsUnobservable : Prop :=
  ∀ (s t : State) (q : Byte), step s = .next t →
    ∃ u, step { s with st := q } = .next u ∧ t = { u with st := t.st } ∧
      ((∃ x, InstrAtPc s (.ldStVx x)) ∧ s.fault = none → u.st = t.st) ∧
      (¬((∃ x, InstrAtPc s (.ldStVx x)) ∧ s.fault = none) → t.st = s.st ∧ u.st = q)

/-- A popped slot is unobservable (R27, decision D28; log 13): two machines that agree but for the stack slots at and
above `sp` step, given the same random byte (log 1), to machines that agree but for the slots at and above their `sp`. -/
def Obligations.StaleStackSlotsAreUnobservable : Prop :=
  ∀ s t u : State, u = { s with stack := u.stack } →
    (∀ k : Fin 16, k.val < s.sp.val → u.stack[k] = s.stack[k]) → step s = .next t →
    ∃ w, step u = .next w ∧ w = { t with stack := w.stack } ∧ ∀ k : Fin 16, k.val < t.sp.val → w.stack[k] = t.stack[k]

/-! ## Control transfer -/

/-- 00EE with a call outstanding: `sp` falls by one, `pc` goes to the stored address plus 2 (40_control_flow.md section 1),
and the slot keeps its value (decision D28, log 13). -/
def Obligations.ReturnGoesPastTheStoredAddress : Prop :=
  ∀ s : State, 0 < s.sp.val → ∃ t, exec .ret s = .next t ∧
    t.sp.val + 1 = s.sp.val ∧ t.stack = s.stack ∧
    (∀ k : Fin 16, k.val + 1 = s.sp.val → t.pc = s.stack[k] + 2#16) ∧ OnlyChanges [.stack] s t

/-- 1nnn goes to `nnn`, unchecked, and changes nothing else; to its own address it changes nothing at all; after a jump to
0xFFF the next fetch latches `FETCH_RANGE` (R101; the fetch range is decision D7, log 11, the latch D5, log 6). -/
def Obligations.JumpGoesToTarget : Prop :=
  ∀ (s : State) (nnn : Imm12), decodeWord (0x1#4 ++ nnn) = some (.jp nnn) ∧
    ∃ t, exec (.jp nnn) s = .next t ∧ t.pc.toNat = nnn.toNat ∧ OnlyChanges [] s t ∧
      (nnn.toNat = s.pc.toNat → t = s) ∧
      (nnn = 0xFFF#12 → s.fault = none → step t = .next { t with fault := some (.fetchRange, 0xFFF) })

/-- 2nnn with room on the stack: its own address is pushed, `pc` goes to `nnn` (40_control_flow.md section 3). -/
def Obligations.CallPushesItsOwnAddress : Prop :=
  ∀ (s : State) (nnn : Imm12), s.sp.val < 16 → ∃ t, exec (.call nnn) s = .next t ∧
    t.pc.toNat = nnn.toNat ∧ t.sp.val = s.sp.val + 1 ∧
    (∀ k : Fin 16, t.stack[k] = if k.val = s.sp.val then s.pc else s.stack[k]) ∧ OnlyChanges [.stack] s t

/-- 2nnn at `sp = 16` latches `STACK_OVERFLOW`, 00EE at `sp = 0` latches `STACK_UNDERFLOW`, each with `pc`, and nothing
else changes (R173, R174; failing is the spec's decision D8, log 13). -/
def Obligations.StackLimitsFault : Prop :=
  ∀ (s : State) (nnn : Imm12),
    (s.sp.val = 16 → exec (.call nnn) s = .next { s with fault := some (.stackOverflow, s.pc.toNat) }) ∧
    (s.sp.val = 0 → exec .ret s = .next { s with fault := some (.stackUnderflow, s.pc.toNat) })

/-- Calls nest up to the room on the stack: `n` calls and then `n` returns come back to 2 past the first call, with `sp`
as before, whatever the targets (95_test_vectors.md S6, for depths 1 through 16). -/
def Obligations.NestedCallsReturnPastTheFirst : Prop :=
  ∀ (s : State) (targets : List Imm12), targets ≠ [] → s.sp.val + targets.length ≤ 16 →
    ∃ t, execAll (targets.map Instr.call ++ List.replicate targets.length .ret) s = .next t ∧
      t.pc = s.pc + 2#16 ∧ t.sp = s.sp ∧ OnlyChanges [.stack] s t ∧
      ∀ k : Fin 16, k.val < s.sp.val → t.stack[k] = s.stack[k]

/-- Bnnn goes to `nnn + V[0]`, the sum not reduced modulo 4096 (R103 at `JUMP_BASE = V0`; decision D7, log 11; the quirk
D13, log 17). -/
def Obligations.IndexedJumpAddsRegisterZero : Prop :=
  ∀ (s : State) (nnn : Imm12), ∃ t, exec (.jpV0 nnn) s = .next t ∧
    t.pc.toNat = nnn.toNat + (readReg s 0x0#4).toNat ∧ OnlyChanges [] s t

/-! ## Skips -/

/-- 3xnn and 4xnn: `pc` moves by 4 or by 2 as `V[x]` equals `nn` or not; nothing else changes (R110, R111). -/
def Obligations.ImmediateSkips : Prop :=
  ∀ (s : State) (x : Nibble) (nn : Byte),
    (decodeWord (0x3#4 ++ x ++ nn) = some (.seImm x nn) ∧ ∃ t, exec (.seImm x nn) s = .next t ∧ OnlyChanges [] s t ∧
      (readReg s x = nn → t.pc = s.pc + 4#16) ∧ (readReg s x ≠ nn → t.pc = s.pc + 2#16)) ∧
    (decodeWord (0x4#4 ++ x ++ nn) = some (.sneImm x nn) ∧ ∃ t, exec (.sneImm x nn) s = .next t ∧ OnlyChanges [] s t ∧
      (readReg s x ≠ nn → t.pc = s.pc + 4#16) ∧ (readReg s x = nn → t.pc = s.pc + 2#16))

/-- 5xy0 and 9xy0: `pc` moves by 4 or by 2 as `V[x]` equals `V[y]` or not; with `x = y` the first always skips and the
second never does (R112, R113; that a low nibble other than 0 is another word is decision D4, log 10). -/
def Obligations.RegisterSkips : Prop :=
  ∀ (s : State) (x y : Nibble),
    (∃ t, exec (.seReg x y) s = .next t ∧ OnlyChanges [] s t ∧ (x = y → t.pc = s.pc + 4#16) ∧
      t.pc = s.pc + if readReg s x = readReg s y then 4#16 else 2#16) ∧
    (∃ t, exec (.sneReg x y) s = .next t ∧ OnlyChanges [] s t ∧ (x = y → t.pc = s.pc + 2#16) ∧
      t.pc = s.pc + if readReg s x = readReg s y then 2#16 else 4#16)

/-! ## Loads and ALU -/

/-- 6xnn and 8xy0: `V[x]` takes `nn`, or the old `V[y]`; `VF` included when `x = 0xF`, and no other register (R120, R122). -/
def Obligations.LoadsIntoRegister : Prop :=
  ∀ (s : State) (x y : Nibble) (nn : Byte),
    (decodeWord (0x6#4 ++ x ++ nn) = some (.ldImm x nn) ∧ ∃ t, exec (.ldImm x nn) s = .next t ∧
      readReg t x = nn ∧ RegistersKeptBut [x] s t ∧ OnlyChanges [.registers] s t ∧ t.pc = s.pc + 2#16) ∧
    (decodeWord (0x8#4 ++ x ++ y ++ 0x0#4) = some (.ldReg x y) ∧ ∃ t, exec (.ldReg x y) s = .next t ∧
      readReg t x = readReg s y ∧ RegistersKeptBut [x] s t ∧ OnlyChanges [.registers] s t ∧ t.pc = s.pc + 2#16)

/-- 7xnn: `V[x]` takes the sum modulo 256 and no flag is written (R121; that `VF` is untouched is decision D14, log 18). -/
def Obligations.AddImmediateWrapsWithoutFlag : Prop :=
  ∀ (s : State) (x : Nibble) (nn : Byte), ∃ t, exec (.addImm x nn) s = .next t ∧
    (readReg t x).toNat = ((readReg s x).toNat + nn.toNat) % 256 ∧ RegistersKeptBut [x] s t ∧
    OnlyChanges [.registers] s t ∧ t.pc = s.pc + 2#16

/-- 8xy1, 8xy2, 8xy3: bit by bit or, and, exclusive or of the old `V[x]` and `V[y]`, no flag (R123, R124, R125; that `VF`
is untouched is decision D14, log 18). -/
def Obligations.BitwiseOperations : Prop :=
  ∀ (s : State) (x y : Nibble),
    (∃ t, exec (.orReg x y) s = .next t ∧ RegistersKeptBut [x] s t ∧ OnlyChanges [.registers] s t ∧ t.pc = s.pc + 2#16 ∧
      ∀ k, (readReg t x).getLsbD k = ((readReg s x).getLsbD k || (readReg s y).getLsbD k)) ∧
    (∃ t, exec (.andReg x y) s = .next t ∧ RegistersKeptBut [x] s t ∧ OnlyChanges [.registers] s t ∧ t.pc = s.pc + 2#16 ∧
      ∀ k, (readReg t x).getLsbD k = ((readReg s x).getLsbD k && (readReg s y).getLsbD k)) ∧
    (∃ t, exec (.xorReg x y) s = .next t ∧ RegistersKeptBut [x] s t ∧ OnlyChanges [.registers] s t ∧ t.pc = s.pc + 2#16 ∧
      ∀ k, (readReg t x).getLsbD k = ((readReg s x).getLsbD k ^^ (readReg s y).getLsbD k))

/-- 8xy4: `V[x]` takes the sum modulo 256 and `VF` the carry; with `x = 0xF` the carry stands (R126; that order is decision
D2, log 9). -/
def Obligations.AddSetsCarryFlag : Prop :=
  ∀ (s : State) (x y : Nibble), decodeWord (0x8#4 ++ x ++ y ++ 0x4#4) = some (.addReg x y) ∧
    ∃ t, exec (.addReg x y) s = .next t ∧
      (x ≠ 0xF#4 → (readReg t x).toNat = ((readReg s x).toNat + (readReg s y).toNat) % 256) ∧
      (readReg t 0xF#4).toNat = (if (readReg s x).toNat + (readReg s y).toNat ≥ 256 then 1 else 0) ∧
      RegistersKeptBut [x, 0xF#4] s t ∧ OnlyChanges [.registers] s t ∧ t.pc = s.pc + 2#16

/-- 8xy5 and 8xy7: the difference modulo 256, and `VF` 0 on a borrow, 1 otherwise; with `x = 0xF` the flag stands (R127,
R129; that order, and the operands being read first, is decision D2, log 9). -/
def Obligations.SubtractSetsNoBorrowFlag : Prop :=
  ∀ (s : State) (x y : Nibble),
    (decodeWord (0x8#4 ++ x ++ y ++ 0x5#4) = some (.subReg x y) ∧ ∃ t, exec (.subReg x y) s = .next t ∧
      (x ≠ 0xF#4 → (readReg t x).toNat = ((readReg s x).toNat + 256 - (readReg s y).toNat) % 256) ∧
      (readReg t 0xF#4).toNat = (if (readReg s y).toNat > (readReg s x).toNat then 0 else 1) ∧
      RegistersKeptBut [x, 0xF#4] s t ∧ OnlyChanges [.registers] s t ∧ t.pc = s.pc + 2#16) ∧
    (decodeWord (0x8#4 ++ x ++ y ++ 0x7#4) = some (.subnReg x y) ∧ ∃ t, exec (.subnReg x y) s = .next t ∧
      (x ≠ 0xF#4 → (readReg t x).toNat = ((readReg s y).toNat + 256 - (readReg s x).toNat) % 256) ∧
      (readReg t 0xF#4).toNat = (if (readReg s x).toNat > (readReg s y).toNat then 0 else 1) ∧
      RegistersKeptBut [x, 0xF#4] s t ∧ OnlyChanges [.registers] s t ∧ t.pc = s.pc + 2#16)

/-- 8xy6 and 8xyE: `V[x]` shifted by one in place, `VF` the bit shifted out; with `x = 0xF` the result stands; `y` has no
effect (R128, R130 at `SHIFT_SRC = VX`; the order at `x = 0xF` is decision D2, log 9; the quirk D13, log 17). -/
def Obligations.ShiftsSetShiftedOutFlag : Prop :=
  ∀ (s : State) (x y : Nibble),
    (∃ t, exec (.shr x y) s = .next t ∧ (readReg t x).toNat = (readReg s x).toNat / 2 ∧
      (x ≠ 0xF#4 → (readReg t 0xF#4).toNat = (readReg s x).toNat % 2) ∧
      RegistersKeptBut [x, 0xF#4] s t ∧ OnlyChanges [.registers] s t ∧ t.pc = s.pc + 2#16) ∧
    (∃ t, exec (.shl x y) s = .next t ∧ (readReg t x).toNat = (readReg s x).toNat * 2 % 256 ∧
      (x ≠ 0xF#4 → (readReg t 0xF#4).toNat = (readReg s x).toNat / 128) ∧
      RegistersKeptBut [x, 0xF#4] s t ∧ OnlyChanges [.registers] s t ∧ t.pc = s.pc + 2#16)

/-- Cxnn: `V[x]` takes the next random byte masked by `nn`, whatever that byte is: every bit outside `nn` is 0, every bit
inside it is the byte's; the next draw is a fresh one (R131). It holds for every sequence of random bytes. -/
def Obligations.RandomByteIsMasked : Prop :=
  ∀ (s : State) (x : Nibble) (nn : Byte), decodeWord (0xC#4 ++ x ++ nn) = some (.rnd x nn) ∧
    ∃ t, exec (.rnd x nn) s = .next t ∧
      (∀ k, nn.getLsbD k = false → (readReg t x).getLsbD k = false) ∧
      (∀ k, nn.getLsbD k = true → (readReg t x).getLsbD k = (Config.randomByte s.draws).getLsbD k) ∧
      t.draws = s.draws + 1 ∧ RegistersKeptBut [x] s t ∧ OnlyChanges [.registers, .draws] s t ∧ t.pc = s.pc + 2#16

/-! ## The index register and memory transfers -/

/-- Annn: `I` takes `nnn`, zero-extended, unchecked (R140). -/
def Obligations.LoadIndexImmediate : Prop :=
  ∀ (s : State) (nnn : Imm12), decodeWord (0xA#4 ++ nnn) = some (.ldI nnn) ∧
    ∃ t, exec (.ldI nnn) s = .next t ∧ t.i.toNat = nnn.toNat ∧ OnlyChanges [.index] s t ∧ t.pc = s.pc + 2#16

/-- Fx1E: `I` takes the sum modulo 65536, never masked to 12 bits, and `VF` says whether the unreduced sum is above 0xFFF
(R141; the wrap at 16 bits is decision D9, log 14). -/
def Obligations.AddToIndexSetsRangeFlag : Prop :=
  ∀ (s : State) (x : Nibble), ∃ t, exec (.addI x) s = .next t ∧
    t.i.toNat = (s.i.toNat + (readReg s x).toNat) % 65536 ∧
    (readReg t 0xF#4).toNat = (if s.i.toNat + (readReg s x).toNat > 0xFFF then 1 else 0) ∧
    RegistersKeptBut [0xF#4] s t ∧ OnlyChanges [.registers, .index] s t ∧ t.pc = s.pc + 2#16

/-- Fx29: `I` takes five times the whole of `V[x]` (R142; that no nibble is masked is decision D14, log 18). -/
def Obligations.GlyphAddressIsFiveTimesRegister : Prop :=
  ∀ (s : State) (x : Nibble), ∃ t, exec (.ldF x) s = .next t ∧
    t.i.toNat = (readReg s x).toNat * 5 ∧ OnlyChanges [.index] s t ∧ t.pc = s.pc + 2#16

/-- Fx33 within memory: hundreds, tens and units of `V[x]` at `I`, `I + 1`, `I + 2`, every other byte kept, `I` unchanged
(R143; the range check is decision D6, log 12). Memory is canonical before and after. -/
def Obligations.StoreDecimalDigits : Prop :=
  ∀ (s : State) (x : Nibble), Memory.wf s.mem = true → baseAddress s + 2 ≤ 0xFFF →
    ∃ t, exec (.ldB x) s = .next t ∧
      (readByte t.mem (baseAddress s)).toNat = (readReg s x).toNat / 100 ∧
      (readByte t.mem (baseAddress s + 1)).toNat = (readReg s x).toNat / 10 % 10 ∧
      (readByte t.mem (baseAddress s + 2)).toNat = (readReg s x).toNat % 10 ∧
      MemoryKeptOutside (baseAddress s) 3 s t ∧ Memory.wf t.mem = true ∧
      OnlyChanges [.memory] s t ∧ t.pc = s.pc + 2#16

/-- Fx55 within memory: `V[k]` at `I + k` for `k` from 0 to `x`, every other byte kept, `I` unchanged (R144; that `I` is
kept is decision D14, log 18, the range check D6, log 12). -/
def Obligations.StoreRegistersAtIndex : Prop :=
  ∀ (s : State) (x : Nibble), Memory.wf s.mem = true → baseAddress s + x.toNat ≤ 0xFFF →
    ∃ t, exec (.storeRegs x) s = .next t ∧
      (∀ k : Nibble, k.toNat ≤ x.toNat → readByte t.mem (baseAddress s + k.toNat) = readReg s k) ∧
      MemoryKeptOutside (baseAddress s) (x.toNat + 1) s t ∧ Memory.wf t.mem = true ∧
      OnlyChanges [.memory] s t ∧ t.pc = s.pc + 2#16

/-- Fx65 within memory: `V[k]` takes the byte at `I + k` for `k` from 0 to `x`, the registers above `x` and `I` keep
their values (R145; that `I` is kept is decision D14, log 18, the range check D6, log 12). -/
def Obligations.LoadRegistersFromIndex : Prop :=
  ∀ (s : State) (x : Nibble), baseAddress s + x.toNat ≤ 0xFFF →
    ∃ t, exec (.loadRegs x) s = .next t ∧
      (∀ k : Nibble, k.toNat ≤ x.toNat → readReg t k = readByte s.mem (baseAddress s + k.toNat)) ∧
      (∀ k : Nibble, x.toNat < k.toNat → readReg t k = readReg s k) ∧
      OnlyChanges [.registers] s t ∧ t.pc = s.pc + 2#16

/-- Registers stored by Fx55 come back by Fx65 at the `I` that Fx55 left, whatever the registers hold in between (R144,
R145; that Fx55 leaves `I` as it was is decision D14, log 18; the range check is D6, log 12). -/
def Obligations.StoreThenLoadRestoresRegisters : Prop :=
  ∀ (s t u : State) (x : Nibble), Memory.wf s.mem = true → baseAddress s + x.toNat ≤ 0xFFF →
    exec (.storeRegs x) s = .next t → u.mem = t.mem → u.i = t.i →
    ∃ w, exec (.loadRegs x) u = .next w ∧ ∀ k : Nibble, k.toNat ≤ x.toNat → readReg w k = readReg s k

/-- A transfer or a draw that would reach above 0xFFF latches `MEM_RANGE` with the highest address and touches nothing
(R59, R172; failing is the spec's decision D6, log 12). -/
def Obligations.TransfersBeyondMemoryFault : Prop :=
  ∀ (s : State) (x y n : Nibble),
    (s.i.toNat + 2 > 0xFFF → exec (.ldB x) s = .next { s with fault := some (.memRange, s.i.toNat + 2) }) ∧
    (s.i.toNat + x.toNat > 0xFFF →
      exec (.storeRegs x) s = .next { s with fault := some (.memRange, s.i.toNat + x.toNat) } ∧
      exec (.loadRegs x) s = .next { s with fault := some (.memRange, s.i.toNat + x.toNat) }) ∧
    (n ≠ 0x0#4 → s.i.toNat + n.toNat > 0x1000 →
      exec (.drw x y n) s = .next { s with fault := some (.memRange, s.i.toNat + n.toNat - 1) })

/-- A store is seen by the very next fetch: after an Fx33 or an Fx55 anywhere within memory, the next `Step` runs the word
that the bytes after the instruction spell once the store is made (R56, R65, R206; the range check is decision D6,
log 12). -/
def Obligations.StoreIsSeenByNextFetch : Prop :=
  ∀ (s : State) (x : Nibble) (i : Instr) (bytes : List Byte),
    (i = .ldB x ∧ bytes = decimalDigits (readReg s x)) ∨ (i = .storeRegs x ∧ bytes = firstRegisters x s) →
    Memory.wf s.mem = true → s.fault = none → WordAtPc s (encode i) → s.pc.toNat + 4 ≤ 4096 →
    baseAddress s + bytes.length ≤ 4096 →
    ∃ t, step s = .next t ∧ t.pc = s.pc + 2#16 ∧
      step t = execWord (wordOfBytes (byteAfterStore s (baseAddress s) bytes (s.pc.toNat + 2))
        (byteAfterStore s (baseAddress s) bytes (s.pc.toNat + 3))) t

/-! ## Display -/

/-- 00E0 turns every cell off and changes nothing else; `VF` and the outputs are untouched (R150; that nothing is
presented is decision D20, log 22). -/
def Obligations.ClearTurnsEveryCellOff : Prop :=
  ∀ s : State, ∃ t, exec .cls s = .next t ∧ (∀ cx cy, Framebuffer.cell t.fb cx cy = false) ∧
    OnlyChanges [.screen] s t ∧ t.pc = s.pc + 2#16

/-- Dxyn within memory, or with no row: exactly the cells under the sprite's 1 bits toggle, wrapping per axis; `VF` is 1 if
one of them was lit, else 0; one `Present()` is emitted; nothing else changes (R151, R152 (2); the coordinates are
decision D24, log 20, the range check D6, log 12). -/
def Obligations.DrawTogglesSpriteCells : Prop :=
  ∀ (s : State) (x y n : Nibble), n = 0x0#4 ∨ baseAddress s + n.toNat ≤ 0x1000 →
    ∃ t, exec (.drw x y n) s = .next t ∧
      (∀ cx cy, SpriteCovers s.mem (baseAddress s) (readReg s x).toNat (readReg s y).toNat n.toNat cx cy →
        Framebuffer.cell t.fb cx cy = !Framebuffer.cell s.fb cx cy) ∧
      (∀ cx cy, ¬SpriteCovers s.mem (baseAddress s) (readReg s x).toNat (readReg s y).toNat n.toNat cx cy →
        Framebuffer.cell t.fb cx cy = Framebuffer.cell s.fb cx cy) ∧
      ((∃ cx cy, SpriteCovers s.mem (baseAddress s) (readReg s x).toNat (readReg s y).toNat n.toNat cx cy ∧
        Framebuffer.cell s.fb cx cy = true) → readReg t 0xF#4 = 0x01#8) ∧
      ((¬∃ cx cy, SpriteCovers s.mem (baseAddress s) (readReg s x).toNat (readReg s y).toNat n.toNat cx cy ∧
        Framebuffer.cell s.fb cx cy = true) → readReg t 0xF#4 = 0x00#8) ∧
      RegistersKeptBut [0xF#4] s t ∧ t.outputs = s.outputs ++ [.present] ∧
      OnlyChanges [.registers, .screen, .outputs] s t ∧ t.pc = s.pc + 2#16

/-- The same sprite drawn twice at the same place restores every cell, and the second `VF` says whether the first draw
turned some cell on (R152 (1), derived by the spec from R151). -/
def Obligations.DrawingTwiceRestoresTheScreen : Prop :=
  ∀ (s t u w : State) (x y n : Nibble), n = 0x0#4 ∨ baseAddress s + n.toNat ≤ 0x1000 →
    exec (.drw x y n) s = .next t → u = { t with v := u.v } → readReg u x = readReg s x → readReg u y = readReg s y →
    exec (.drw x y n) u = .next w →
    (∀ cx cy, Framebuffer.cell w.fb cx cy = Framebuffer.cell s.fb cx cy) ∧
    (readReg w 0xF#4 = 0x01#8 ↔ ∃ cx cy, Framebuffer.cell s.fb cx cy = false ∧ Framebuffer.cell t.fb cx cy = true)

/-! ## Keypad and timers -/

/-- Ex9E and ExA1 with `V[x]` at most 15: `pc` moves by 4 or by 2 as the key named is pressed or not, and nothing else
changes; above 15 both latch `KEY_RANGE` with `V[x]` (R160, R161, R175; failing is decision D10, log 15). -/
def Obligations.KeySkips : Prop :=
  ∀ (s : State) (x : Nibble),
    (∀ k : Fin 16, (readReg s x).toNat = k.val →
      (∃ t, exec (.skp x) s = .next t ∧ OnlyChanges [] s t ∧ t.pc = s.pc + if s.keys[k] then 4#16 else 2#16) ∧
      (∃ t, exec (.sknp x) s = .next t ∧ OnlyChanges [] s t ∧ t.pc = s.pc + if s.keys[k] then 2#16 else 4#16)) ∧
    ((readReg s x).toNat > 15 →
      exec (.skp x) s = .next { s with fault := some (.keyRange, (readReg s x).toNat) } ∧
      exec (.sknp x) s = .next { s with fault := some (.keyRange, (readReg s x).toNat) })

/-- Fx07 reads `DT` into `V[x]`; Fx15 and Fx18 write `V[x]` into `DT` and `ST` (R162, R163, R164; that nothing
else is written is decision D14, log 18). -/
def Obligations.TimerMoves : Prop :=
  ∀ (s : State) (x : Nibble),
    (decodeWord (0xF#4 ++ x ++ 0x07#8) = some (.ldVxDt x) ∧ ∃ t, exec (.ldVxDt x) s = .next t ∧ readReg t x = s.dt ∧
      RegistersKeptBut [x] s t ∧ OnlyChanges [.registers] s t ∧ t.pc = s.pc + 2#16) ∧
    (decodeWord (0xF#4 ++ x ++ 0x15#8) = some (.ldDtVx x) ∧ ∃ t, exec (.ldDtVx x) s = .next t ∧ t.dt = readReg s x ∧
      OnlyChanges [.delay] s t ∧ t.pc = s.pc + 2#16) ∧
    (decodeWord (0xF#4 ++ x ++ 0x18#8) = some (.ldStVx x) ∧ ∃ t, exec (.ldStVx x) s = .next t ∧ t.st = readReg s x ∧
      (tone t = true ↔ readReg s x ≠ 0x00#8) ∧ OnlyChanges [.sound] s t ∧ t.pc = s.pc + 2#16)

/-- Fx0A: with no key down the whole state is unchanged, `pc` included; else `V[x]` takes the lowest key down, the key is
not consumed, and `pc` moves by 2 (R165; that no flag is kept is decision D12, log 25). -/
def Obligations.KeyWaitTakesLowestKey : Prop :=
  ∀ (s : State) (x : Nibble),
    ((∀ k : Fin 16, s.keys[k] = false) → exec (.ldVxK x) s = .next s) ∧
    (∀ k : Fin 16, s.keys[k] = true → (∀ j : Fin 16, j < k → s.keys[j] = false) →
      ∃ t, exec (.ldVxK x) s = .next t ∧ (readReg t x).toNat = k.val ∧ RegistersKeptBut [x] s t ∧
        OnlyChanges [.registers] s t ∧ t.pc = s.pc + 2#16)

/-! ## Host events -/

/-- `TimerTick` takes one from each timer that is not 0 and changes nothing else, the latch and `pc` included; the tone is
on exactly while `ST` is not 0 (R184, R187; that the tick is an input is decision D11, log 16). -/
def Obligations.TickCountsTimersDownToZero : Prop :=
  ∀ s : State, ∃ t, applyEvent .timerTick s = .next t ∧
    t.dt.toNat = s.dt.toNat - 1 ∧ t.st.toNat = s.st.toNat - 1 ∧ t.pc = s.pc ∧
    OnlyChanges [.delay, .sound] s t ∧ (tone t = true ↔ 1 < s.st.toNat)

/-- After as many ticks as the timer holds, and no Fx15 between, `DT` is 0 (95_test_vectors.md S8, R184). -/
def Obligations.TicksRunTheDelayTimerOut : Prop :=
  ∀ (s : State) (n : Nat), ∃ t, runEvents .launched (List.replicate n .timerTick) s = .next t ∧
    t.dt.toNat = s.dt.toNat - n ∧ t.st.toNat = s.st.toNat - n ∧ OnlyChanges [.delay, .sound] s t

/-- `Reset` clears the registers, `I`, the stack, the timers, the screen and the latch, puts `pc` at 0x200, and leaves every
byte of memory and the keys as they are (R202; clearing `I`, the slots and the latch is decision D16, log 5). -/
def Obligations.ResetClearsAllButMemory : Prop :=
  ∀ s : State, ∃ t, applyEvent .reset s = .next t ∧
    (∀ r, readReg t r = 0x00#8) ∧ t.i = 0x0000#16 ∧ t.pc = 0x0200#16 ∧ t.sp.val = 0 ∧
    (∀ k : Fin 16, t.stack[k] = 0x0000#16) ∧ t.dt = 0x00#8 ∧ t.st = 0x00#8 ∧
    (∀ cx cy, Framebuffer.cell t.fb cx cy = false) ∧ t.fault = none ∧ t.mem = s.mem ∧ t.keys = s.keys

/-- `PowerOn` clears what `Reset` clears, puts the font at 0x000 to 0x04F and `MEM_INIT` in every other byte, and leaves the
keys to the host (R200; the font's bytes are PRESUMED, log 3, `MEM_INIT` is decision D15, log 4, `I`, the slots and the
latch D16, log 5). -/
def Obligations.PowerOnLoadsFontAndClears : Prop :=
  ∀ s : State, ∃ t, applyEvent .powerOn s = .next t ∧
    (∀ r, readReg t r = 0x00#8) ∧ t.i = 0x0000#16 ∧ t.pc = 0x0200#16 ∧ t.sp.val = 0 ∧
    (∀ k : Fin 16, t.stack[k] = 0x0000#16) ∧ t.dt = 0x00#8 ∧ t.st = 0x00#8 ∧
    (∀ cx cy, Framebuffer.cell t.fb cx cy = false) ∧ t.fault = none ∧ t.keys = s.keys ∧
    Config.font.length = 80 ∧
    (∀ a, a < 80 → Config.font[a]? = some (readByte t.mem a)) ∧ ∀ a, 80 ≤ a → readByte t.mem a = 0x00#8

/-- `Load` places an image of at most 3584 bytes verbatim from 0x200 and changes nothing else; a longer one is refused and
no byte of it is placed (R201; when it may come is decision D19, log 21). -/
def Obligations.LoadPlacesTheImageOrRefuses : Prop :=
  ∀ (s : State) (image : List Byte), Memory.wf s.mem = true →
    (image.length ≤ 3584 → ∃ t, applyEvent (.load image) s = .next t ∧
      (∀ k, k < image.length → image[k]? = some (readByte t.mem (0x200 + k))) ∧
      MemoryKeptOutside 0x200 image.length s t ∧ t.pc = s.pc ∧ OnlyChanges [.memory] s t) ∧
    (image.length > 3584 → applyEvent (.load image) s = .refused .imageTooLarge)

/-- From power-on and a load the first `Step` runs the image's first two bytes, the first being the high byte, from the
launch state, with every register 0 (R203, R204, derived by the spec from R200 and R201). -/
def Obligations.FirstStepRunsTheImage : Prop :=
  ∀ (s : State) (hi lo : Byte) (rest : List Byte), rest.length + 2 ≤ 3584 →
    ∃ t, runEvents .off [.powerOn, .load (hi :: lo :: rest)] s = .next t ∧ t.pc = 0x0200#16 ∧
      t = { launchState (hi :: lo :: rest) s.keys with draws := s.draws, outputs := s.outputs } ∧
      (∀ r, readReg t r = 0x00#8) ∧ t.fault = none ∧ step t = execWord (wordOfBytes hi lo) t

/-- A `Reset`, or a power-on, is the only way out of a latched fault: no `Step`, tick, key change or load clears the latch
(R180, R181; decision D5, log 6). -/
def Obligations.OnlyResetLeavesAFault : Prop :=
  ∀ (s t : State) (e : Event), s.fault ≠ none → applyEvent e s = .next t → t.fault = none → e = .reset ∨ e = .powerOn

/-- A run that ends with no fault latched had none latched at any point after which no `Reset` came: what a claim accepts
at its end it may accept throughout (R180, R181; decision D5, log 6). -/
def Obligations.SafeRunHadNoEarlierFault : Prop :=
  ∀ (s t : State) (earlier later : List Event), SafeRun (earlier ++ later) s t → .reset ∉ later →
    ∃ u, SafeRun earlier s u ∧ SafeRun later u t

/-- `SetKeys(k)`: the keys are `k`, and nothing else changes, the latch and `pc` included (R31, R192; that the keys come as
an event is decision D1, log 8). -/
def Obligations.SetKeysWritesTheKeys : Prop :=
  ∀ (s : State) (k : Vector Bool 16), ∃ t, applyEvent (.setKeys k) s = .next t ∧ t.keys = k ∧ t.pc = s.pc ∧
    OnlyChanges [.keys] s t

/-- After a `Load` that fails, the host's ticks, key changes and resets act as if it had not come and no byte of memory
changes, but no `Step` may follow, nor a second `Load` (R177, R192, R201; decision D19, log 21). -/
def Obligations.FailedLoadBarsEveryStep : Prop :=
  ∀ (s : State) (image : List Byte) (events later : List Event) (barred : Event), image.length > 3584 →
    (∀ e ∈ events, e = .timerTick ∨ e = .reset ∨ ∃ k, e = .setKeys k) →
    (barred = .step ∨ ∃ other, barred = .load other) →
    (∃ t, runEvents .poweredOn (.load image :: events) s = .next t ∧ runEvents .poweredOn events s = .next t ∧
      t.mem = s.mem) ∧
    runEvents .poweredOn (.load image :: (events ++ barred :: later)) s = .refused .hostOutOfOrder
end

