-- ==== Sys2Proof/Laws/Decode.lean ====
section
/-!
SUPPORT. The fields of a word put together by a layout (R72, R74), and a word as its fields put together.
-/

namespace Sys2Proof

@[simp] theorem topNibble_layoutA (t : Nibble) (nnn : Imm12) : topNibble (layoutA t nnn) = t := by
  apply BitVec.eq_of_toNat_eq
  simp only [topNibble, layoutA, BitVec.extractLsb'_toNat, BitVec.toNat_append, Nat.shiftLeft_eq, Nat.shiftRight_eq_div_pow]
  rw [← Nat.shiftLeft_eq, ← Nat.shiftLeft_add_eq_or_of_lt nnn.isLt, Nat.shiftLeft_eq]
  have := t.isLt; have := nnn.isLt
  omega

@[simp] theorem fieldNNN_layoutA (t : Nibble) (nnn : Imm12) : fieldNNN (layoutA t nnn) = nnn := by
  apply BitVec.eq_of_toNat_eq
  simp only [fieldNNN, layoutA, BitVec.extractLsb'_toNat, BitVec.toNat_append, Nat.shiftLeft_eq, Nat.shiftRight_eq_div_pow]
  rw [← Nat.shiftLeft_eq, ← Nat.shiftLeft_add_eq_or_of_lt nnn.isLt, Nat.shiftLeft_eq]
  have := t.isLt; have := nnn.isLt
  omega

/-- Layout `XI` as a number. -/
theorem toNat_layoutXI (t x : Nibble) (nn : Byte) :
    (layoutXI t x nn).toNat = t.toNat * 4096 + x.toNat * 256 + nn.toNat := by
  simp only [layoutXI, BitVec.toNat_append]
  rw [← Nat.shiftLeft_add_eq_or_of_lt x.isLt, ← Nat.shiftLeft_add_eq_or_of_lt nn.isLt]
  simp only [Nat.shiftLeft_eq]
  omega

/-- Layouts `XY` and `XYN` as a number. -/
theorem toNat_layoutXY (t x y n : Nibble) :
    (layoutXY t x y n).toNat = t.toNat * 4096 + x.toNat * 256 + y.toNat * 16 + n.toNat := by
  simp only [layoutXY, BitVec.toNat_append]
  rw [← Nat.shiftLeft_add_eq_or_of_lt x.isLt, ← Nat.shiftLeft_add_eq_or_of_lt y.isLt,
    ← Nat.shiftLeft_add_eq_or_of_lt n.isLt]
  simp only [Nat.shiftLeft_eq]
  omega

theorem toNat_topNibble (op : Word) : (topNibble op).toNat = op.toNat / 4096 := by
  have := op.isLt
  simp only [topNibble, BitVec.extractLsb'_toNat, Nat.shiftRight_eq_div_pow]
  omega

theorem toNat_fieldX (op : Word) : (fieldX op).toNat = op.toNat / 256 % 16 := by
  simp only [fieldX, BitVec.extractLsb'_toNat, Nat.shiftRight_eq_div_pow]

theorem toNat_fieldY (op : Word) : (fieldY op).toNat = op.toNat / 16 % 16 := by
  simp only [fieldY, BitVec.extractLsb'_toNat, Nat.shiftRight_eq_div_pow]

theorem toNat_fieldN (op : Word) : (fieldN op).toNat = op.toNat % 16 := by
  simp only [fieldN, BitVec.extractLsb'_toNat, Nat.shiftRight_eq_div_pow]
  norm_num

theorem toNat_fieldNN (op : Word) : (fieldNN op).toNat = op.toNat % 256 := by
  simp only [fieldNN, BitVec.extractLsb'_toNat, Nat.shiftRight_eq_div_pow]
  norm_num

theorem toNat_fieldNNN (op : Word) : (fieldNNN op).toNat = op.toNat % 4096 := by
  simp only [fieldNNN, BitVec.extractLsb'_toNat, Nat.shiftRight_eq_div_pow]
  norm_num

@[simp] theorem topNibble_layoutXI (t x : Nibble) (nn : Byte) : topNibble (layoutXI t x nn) = t := by
  apply BitVec.eq_of_toNat_eq
  rw [toNat_topNibble, toNat_layoutXI]
  have := x.isLt; have := nn.isLt
  omega

@[simp] theorem fieldX_layoutXI (t x : Nibble) (nn : Byte) : fieldX (layoutXI t x nn) = x := by
  apply BitVec.eq_of_toNat_eq
  rw [toNat_fieldX, toNat_layoutXI]
  have := x.isLt; have := nn.isLt
  omega

@[simp] theorem fieldNN_layoutXI (t x : Nibble) (nn : Byte) : fieldNN (layoutXI t x nn) = nn := by
  apply BitVec.eq_of_toNat_eq
  rw [toNat_fieldNN, toNat_layoutXI]
  have := nn.isLt
  omega

@[simp] theorem topNibble_layoutXY (t x y n : Nibble) : topNibble (layoutXY t x y n) = t := by
  apply BitVec.eq_of_toNat_eq
  rw [toNat_topNibble, toNat_layoutXY]
  have := x.isLt; have := y.isLt; have := n.isLt
  omega

@[simp] theorem fieldX_layoutXY (t x y n : Nibble) : fieldX (layoutXY t x y n) = x := by
  apply BitVec.eq_of_toNat_eq
  rw [toNat_fieldX, toNat_layoutXY]
  have := x.isLt; have := y.isLt; have := n.isLt
  omega

@[simp] theorem fieldY_layoutXY (t x y n : Nibble) : fieldY (layoutXY t x y n) = y := by
  apply BitVec.eq_of_toNat_eq
  rw [toNat_fieldY, toNat_layoutXY]
  have := y.isLt; have := n.isLt
  omega

@[simp] theorem fieldN_layoutXY (t x y n : Nibble) : fieldN (layoutXY t x y n) = n := by
  apply BitVec.eq_of_toNat_eq
  rw [toNat_fieldN, toNat_layoutXY]
  have := n.isLt
  omega

/-- The two bytes of a word, high byte first, are the word (R55). -/
theorem wordOfBytes_bytes (op : Word) : wordOfBytes (highByte op) (lowByte op) = op := by
  apply BitVec.eq_of_toNat_eq
  have := op.isLt
  simp only [wordOfBytes, highByte, lowByte, BitVec.toNat_append, BitVec.extractLsb'_toNat, Nat.shiftRight_eq_div_pow]
  rw [← Nat.shiftLeft_add_eq_or_of_lt (Nat.mod_lt _ (by decide)), Nat.shiftLeft_eq]
  omega

/-- The word of two bytes as a number: the first is bits 15 to 8 (R55, R71). -/
theorem toNat_wordOfBytes (hi lo : Byte) : (wordOfBytes hi lo).toNat = 256 * hi.toNat + lo.toNat := by
  simp only [wordOfBytes, BitVec.toNat_append]
  rw [← Nat.shiftLeft_add_eq_or_of_lt lo.isLt, Nat.shiftLeft_eq]
  omega

/-- A word masked by its top nibble keeps the top nibble. -/
theorem layoutA_and_mask (t : Nibble) (nnn : Imm12) : layoutA t nnn &&& 0xF000#16 = layoutA t 0x000#12 := by
  rw [show (0xF000#16 : Word) = (0xF#4 ++ 0x000#12 : Word) by decide, layoutA, BitVec.and_append]
  simp only [layoutA]
  congr 1
  · exact BitVec.and_allOnes
  · exact BitVec.and_zero

theorem layoutXI_and_top (t x : Nibble) (nn : Byte) : layoutXI t x nn &&& 0xF000#16 = layoutXI t 0x0#4 0x00#8 := by
  rw [show (0xF000#16 : Word) = (0xF#4 ++ 0x0#4 ++ 0x00#8 : Word) by decide, layoutXI, BitVec.and_append,
    BitVec.and_append]
  simp only [layoutXI]
  congr 2
  · exact BitVec.and_allOnes
  · exact BitVec.and_zero
  · exact BitVec.and_zero

theorem layoutXI_and_low (t x : Nibble) (nn : Byte) : layoutXI t x nn &&& 0xF0FF#16 = layoutXI t 0x0#4 nn := by
  rw [show (0xF0FF#16 : Word) = (0xF#4 ++ 0x0#4 ++ 0xFF#8 : Word) by decide, layoutXI, BitVec.and_append,
    BitVec.and_append]
  simp only [layoutXI]
  congr 2
  · exact BitVec.and_allOnes
  · exact BitVec.and_zero
  · exact BitVec.and_allOnes

theorem layoutXY_and_top (t x y n : Nibble) :
    layoutXY t x y n &&& 0xF000#16 = layoutXY t 0x0#4 0x0#4 0x0#4 := by
  rw [show (0xF000#16 : Word) = (0xF#4 ++ 0x0#4 ++ 0x0#4 ++ 0x0#4 : Word) by decide, layoutXY,
    BitVec.and_append, BitVec.and_append, BitVec.and_append]
  simp only [layoutXY]
  congr 3
  · exact BitVec.and_allOnes
  · exact BitVec.and_zero
  · exact BitVec.and_zero
  · exact BitVec.and_zero

theorem layoutXY_and_low (t x y n : Nibble) : layoutXY t x y n &&& 0xF00F#16 = layoutXY t 0x0#4 0x0#4 n := by
  rw [show (0xF00F#16 : Word) = (0xF#4 ++ 0x0#4 ++ 0x0#4 ++ 0xF#4 : Word) by decide, layoutXY,
    BitVec.and_append, BitVec.and_append, BitVec.and_append]
  simp only [layoutXY]
  congr 3
  · exact BitVec.and_allOnes
  · exact BitVec.and_zero
  · exact BitVec.and_zero
  · exact BitVec.and_allOnes

end Sys2Proof
end

