-- ==== Sys2Proof/Laws/State.lean ====
section
/-!
SUPPORT. One lemma per field and update, each true by definition, so that no proof unfolds a record update.
-/

namespace Sys2Proof.Machine

@[simp] theorem setReg_i (x : Nibble) (b : Byte) (s : State) : (setReg x b s).i = s.i := rfl
@[simp] theorem setReg_pc (x : Nibble) (b : Byte) (s : State) : (setReg x b s).pc = s.pc := rfl
@[simp] theorem setReg_sp (x : Nibble) (b : Byte) (s : State) : (setReg x b s).sp = s.sp := rfl
@[simp] theorem setReg_stack (x : Nibble) (b : Byte) (s : State) : (setReg x b s).stack = s.stack := rfl
@[simp] theorem setReg_dt (x : Nibble) (b : Byte) (s : State) : (setReg x b s).dt = s.dt := rfl
@[simp] theorem setReg_st (x : Nibble) (b : Byte) (s : State) : (setReg x b s).st = s.st := rfl
@[simp] theorem setReg_fb (x : Nibble) (b : Byte) (s : State) : (setReg x b s).fb = s.fb := rfl
@[simp] theorem setReg_keys (x : Nibble) (b : Byte) (s : State) : (setReg x b s).keys = s.keys := rfl
@[simp] theorem setReg_fault (x : Nibble) (b : Byte) (s : State) : (setReg x b s).fault = s.fault := rfl
@[simp] theorem setReg_mem (x : Nibble) (b : Byte) (s : State) : (setReg x b s).mem = s.mem := rfl
@[simp] theorem setReg_draws (x : Nibble) (b : Byte) (s : State) : (setReg x b s).draws = s.draws := rfl
@[simp] theorem setReg_outputs (x : Nibble) (b : Byte) (s : State) : (setReg x b s).outputs = s.outputs := rfl

@[simp] theorem setFlag_i (b : Byte) (s : State) : (setFlag b s).i = s.i := rfl
@[simp] theorem setFlag_pc (b : Byte) (s : State) : (setFlag b s).pc = s.pc := rfl
@[simp] theorem setFlag_sp (b : Byte) (s : State) : (setFlag b s).sp = s.sp := rfl
@[simp] theorem setFlag_stack (b : Byte) (s : State) : (setFlag b s).stack = s.stack := rfl
@[simp] theorem setFlag_dt (b : Byte) (s : State) : (setFlag b s).dt = s.dt := rfl
@[simp] theorem setFlag_st (b : Byte) (s : State) : (setFlag b s).st = s.st := rfl
@[simp] theorem setFlag_fb (b : Byte) (s : State) : (setFlag b s).fb = s.fb := rfl
@[simp] theorem setFlag_keys (b : Byte) (s : State) : (setFlag b s).keys = s.keys := rfl
@[simp] theorem setFlag_fault (b : Byte) (s : State) : (setFlag b s).fault = s.fault := rfl
@[simp] theorem setFlag_mem (b : Byte) (s : State) : (setFlag b s).mem = s.mem := rfl
@[simp] theorem setFlag_draws (b : Byte) (s : State) : (setFlag b s).draws = s.draws := rfl
@[simp] theorem setFlag_outputs (b : Byte) (s : State) : (setFlag b s).outputs = s.outputs := rfl

@[simp] theorem setIndex_v (w : Word) (s : State) : (setIndex w s).v = s.v := rfl
@[simp] theorem setIndex_i (w : Word) (s : State) : (setIndex w s).i = w := rfl
@[simp] theorem setIndex_pc (w : Word) (s : State) : (setIndex w s).pc = s.pc := rfl
@[simp] theorem setIndex_sp (w : Word) (s : State) : (setIndex w s).sp = s.sp := rfl
@[simp] theorem setIndex_stack (w : Word) (s : State) : (setIndex w s).stack = s.stack := rfl
@[simp] theorem setIndex_dt (w : Word) (s : State) : (setIndex w s).dt = s.dt := rfl
@[simp] theorem setIndex_st (w : Word) (s : State) : (setIndex w s).st = s.st := rfl
@[simp] theorem setIndex_fb (w : Word) (s : State) : (setIndex w s).fb = s.fb := rfl
@[simp] theorem setIndex_keys (w : Word) (s : State) : (setIndex w s).keys = s.keys := rfl
@[simp] theorem setIndex_fault (w : Word) (s : State) : (setIndex w s).fault = s.fault := rfl
@[simp] theorem setIndex_mem (w : Word) (s : State) : (setIndex w s).mem = s.mem := rfl
@[simp] theorem setIndex_draws (w : Word) (s : State) : (setIndex w s).draws = s.draws := rfl
@[simp] theorem setIndex_outputs (w : Word) (s : State) : (setIndex w s).outputs = s.outputs := rfl

@[simp] theorem setPc_v (w : Word) (s : State) : (setPc w s).v = s.v := rfl
@[simp] theorem setPc_i (w : Word) (s : State) : (setPc w s).i = s.i := rfl
@[simp] theorem setPc_pc (w : Word) (s : State) : (setPc w s).pc = w := rfl
@[simp] theorem setPc_sp (w : Word) (s : State) : (setPc w s).sp = s.sp := rfl
@[simp] theorem setPc_stack (w : Word) (s : State) : (setPc w s).stack = s.stack := rfl
@[simp] theorem setPc_dt (w : Word) (s : State) : (setPc w s).dt = s.dt := rfl
@[simp] theorem setPc_st (w : Word) (s : State) : (setPc w s).st = s.st := rfl
@[simp] theorem setPc_fb (w : Word) (s : State) : (setPc w s).fb = s.fb := rfl
@[simp] theorem setPc_keys (w : Word) (s : State) : (setPc w s).keys = s.keys := rfl
@[simp] theorem setPc_fault (w : Word) (s : State) : (setPc w s).fault = s.fault := rfl
@[simp] theorem setPc_mem (w : Word) (s : State) : (setPc w s).mem = s.mem := rfl
@[simp] theorem setPc_draws (w : Word) (s : State) : (setPc w s).draws = s.draws := rfl
@[simp] theorem setPc_outputs (w : Word) (s : State) : (setPc w s).outputs = s.outputs := rfl

@[simp] theorem advance_v (s : State) : (advance s).v = s.v := rfl
@[simp] theorem advance_i (s : State) : (advance s).i = s.i := rfl
@[simp] theorem advance_pc (s : State) : (advance s).pc = s.pc + 2#16 := rfl
@[simp] theorem advance_sp (s : State) : (advance s).sp = s.sp := rfl
@[simp] theorem advance_stack (s : State) : (advance s).stack = s.stack := rfl
@[simp] theorem advance_dt (s : State) : (advance s).dt = s.dt := rfl
@[simp] theorem advance_st (s : State) : (advance s).st = s.st := rfl
@[simp] theorem advance_fb (s : State) : (advance s).fb = s.fb := rfl
@[simp] theorem advance_keys (s : State) : (advance s).keys = s.keys := rfl
@[simp] theorem advance_fault (s : State) : (advance s).fault = s.fault := rfl
@[simp] theorem advance_mem (s : State) : (advance s).mem = s.mem := rfl
@[simp] theorem advance_draws (s : State) : (advance s).draws = s.draws := rfl
@[simp] theorem advance_outputs (s : State) : (advance s).outputs = s.outputs := rfl

@[simp] theorem skipIf_v (taken : Bool) (s : State) : (skipIf taken s).v = s.v := rfl
@[simp] theorem skipIf_i (taken : Bool) (s : State) : (skipIf taken s).i = s.i := rfl
@[simp] theorem skipIf_pc (taken : Bool) (s : State) : (skipIf taken s).pc = s.pc + if taken then 4#16 else 2#16 := rfl
@[simp] theorem skipIf_sp (taken : Bool) (s : State) : (skipIf taken s).sp = s.sp := rfl
@[simp] theorem skipIf_stack (taken : Bool) (s : State) : (skipIf taken s).stack = s.stack := rfl
@[simp] theorem skipIf_dt (taken : Bool) (s : State) : (skipIf taken s).dt = s.dt := rfl
@[simp] theorem skipIf_st (taken : Bool) (s : State) : (skipIf taken s).st = s.st := rfl
@[simp] theorem skipIf_fb (taken : Bool) (s : State) : (skipIf taken s).fb = s.fb := rfl
@[simp] theorem skipIf_keys (taken : Bool) (s : State) : (skipIf taken s).keys = s.keys := rfl
@[simp] theorem skipIf_fault (taken : Bool) (s : State) : (skipIf taken s).fault = s.fault := rfl
@[simp] theorem skipIf_mem (taken : Bool) (s : State) : (skipIf taken s).mem = s.mem := rfl
@[simp] theorem skipIf_draws (taken : Bool) (s : State) : (skipIf taken s).draws = s.draws := rfl
@[simp] theorem skipIf_outputs (taken : Bool) (s : State) : (skipIf taken s).outputs = s.outputs := rfl

@[simp] theorem loadRegisters_i (bytes : List Byte) (s : State) : (loadRegisters bytes s).i = s.i := rfl
@[simp] theorem loadRegisters_pc (bytes : List Byte) (s : State) : (loadRegisters bytes s).pc = s.pc := rfl
@[simp] theorem loadRegisters_sp (bytes : List Byte) (s : State) : (loadRegisters bytes s).sp = s.sp := rfl
@[simp] theorem loadRegisters_stack (bytes : List Byte) (s : State) : (loadRegisters bytes s).stack = s.stack := rfl
@[simp] theorem loadRegisters_dt (bytes : List Byte) (s : State) : (loadRegisters bytes s).dt = s.dt := rfl
@[simp] theorem loadRegisters_st (bytes : List Byte) (s : State) : (loadRegisters bytes s).st = s.st := rfl
@[simp] theorem loadRegisters_fb (bytes : List Byte) (s : State) : (loadRegisters bytes s).fb = s.fb := rfl
@[simp] theorem loadRegisters_keys (bytes : List Byte) (s : State) : (loadRegisters bytes s).keys = s.keys := rfl
@[simp] theorem loadRegisters_fault (bytes : List Byte) (s : State) : (loadRegisters bytes s).fault = s.fault := rfl
@[simp] theorem loadRegisters_mem (bytes : List Byte) (s : State) : (loadRegisters bytes s).mem = s.mem := rfl
@[simp] theorem loadRegisters_draws (bytes : List Byte) (s : State) : (loadRegisters bytes s).draws = s.draws := rfl
@[simp] theorem loadRegisters_outputs (bytes : List Byte) (s : State) : (loadRegisters bytes s).outputs = s.outputs := rfl

@[simp] theorem push_v (w : Word) (s : State) (room : s.sp.val < 16) : (push w s room).v = s.v := rfl
@[simp] theorem push_i (w : Word) (s : State) (room : s.sp.val < 16) : (push w s room).i = s.i := rfl
@[simp] theorem push_pc (w : Word) (s : State) (room : s.sp.val < 16) : (push w s room).pc = s.pc := rfl
@[simp] theorem push_sp (w : Word) (s : State) (room : s.sp.val < 16) : (push w s room).sp = ⟨s.sp.val + 1, Nat.succ_lt_succ room⟩ := rfl
@[simp] theorem push_stack (w : Word) (s : State) (room : s.sp.val < 16) : (push w s room).stack = s.stack.set s.sp.val w room := rfl
@[simp] theorem push_dt (w : Word) (s : State) (room : s.sp.val < 16) : (push w s room).dt = s.dt := rfl
@[simp] theorem push_st (w : Word) (s : State) (room : s.sp.val < 16) : (push w s room).st = s.st := rfl
@[simp] theorem push_fb (w : Word) (s : State) (room : s.sp.val < 16) : (push w s room).fb = s.fb := rfl
@[simp] theorem push_keys (w : Word) (s : State) (room : s.sp.val < 16) : (push w s room).keys = s.keys := rfl
@[simp] theorem push_fault (w : Word) (s : State) (room : s.sp.val < 16) : (push w s room).fault = s.fault := rfl
@[simp] theorem push_mem (w : Word) (s : State) (room : s.sp.val < 16) : (push w s room).mem = s.mem := rfl
@[simp] theorem push_draws (w : Word) (s : State) (room : s.sp.val < 16) : (push w s room).draws = s.draws := rfl
@[simp] theorem push_outputs (w : Word) (s : State) (room : s.sp.val < 16) : (push w s room).outputs = s.outputs := rfl

@[simp] theorem pop_v (s : State) (held : 0 < s.sp.val) : ((pop s held).2).v = s.v := rfl
@[simp] theorem pop_i (s : State) (held : 0 < s.sp.val) : ((pop s held).2).i = s.i := rfl
@[simp] theorem pop_pc (s : State) (held : 0 < s.sp.val) : ((pop s held).2).pc = s.pc := rfl
@[simp] theorem pop_stack (s : State) (held : 0 < s.sp.val) : ((pop s held).2).stack = s.stack := rfl
@[simp] theorem pop_dt (s : State) (held : 0 < s.sp.val) : ((pop s held).2).dt = s.dt := rfl
@[simp] theorem pop_st (s : State) (held : 0 < s.sp.val) : ((pop s held).2).st = s.st := rfl
@[simp] theorem pop_fb (s : State) (held : 0 < s.sp.val) : ((pop s held).2).fb = s.fb := rfl
@[simp] theorem pop_keys (s : State) (held : 0 < s.sp.val) : ((pop s held).2).keys = s.keys := rfl
@[simp] theorem pop_fault (s : State) (held : 0 < s.sp.val) : ((pop s held).2).fault = s.fault := rfl
@[simp] theorem pop_mem (s : State) (held : 0 < s.sp.val) : ((pop s held).2).mem = s.mem := rfl
@[simp] theorem pop_draws (s : State) (held : 0 < s.sp.val) : ((pop s held).2).draws = s.draws := rfl
@[simp] theorem pop_outputs (s : State) (held : 0 < s.sp.val) : ((pop s held).2).outputs = s.outputs := rfl

@[simp] theorem emit_v (o : Output) (s : State) : (emit o s).v = s.v := rfl
@[simp] theorem emit_i (o : Output) (s : State) : (emit o s).i = s.i := rfl
@[simp] theorem emit_pc (o : Output) (s : State) : (emit o s).pc = s.pc := rfl
@[simp] theorem emit_sp (o : Output) (s : State) : (emit o s).sp = s.sp := rfl
@[simp] theorem emit_stack (o : Output) (s : State) : (emit o s).stack = s.stack := rfl
@[simp] theorem emit_dt (o : Output) (s : State) : (emit o s).dt = s.dt := rfl
@[simp] theorem emit_st (o : Output) (s : State) : (emit o s).st = s.st := rfl
@[simp] theorem emit_fb (o : Output) (s : State) : (emit o s).fb = s.fb := rfl
@[simp] theorem emit_keys (o : Output) (s : State) : (emit o s).keys = s.keys := rfl
@[simp] theorem emit_fault (o : Output) (s : State) : (emit o s).fault = s.fault := rfl
@[simp] theorem emit_mem (o : Output) (s : State) : (emit o s).mem = s.mem := rfl
@[simp] theorem emit_draws (o : Output) (s : State) : (emit o s).draws = s.draws := rfl
@[simp] theorem emit_outputs (o : Output) (s : State) : (emit o s).outputs = s.outputs ++ [o] := rfl

@[simp] theorem powerOn_v (s : State) : (powerOn s).v = State.reset.v := rfl
@[simp] theorem powerOn_i (s : State) : (powerOn s).i = 0x0000#16 := rfl
@[simp] theorem powerOn_pc (s : State) : (powerOn s).pc = Config.progBase := rfl
@[simp] theorem powerOn_sp (s : State) : (powerOn s).sp = 0 := rfl
@[simp] theorem powerOn_stack (s : State) : (powerOn s).stack = State.reset.stack := rfl
@[simp] theorem powerOn_dt (s : State) : (powerOn s).dt = 0x00#8 := rfl
@[simp] theorem powerOn_st (s : State) : (powerOn s).st = 0x00#8 := rfl
@[simp] theorem powerOn_fb (s : State) : (powerOn s).fb = Framebuffer.blank := rfl
@[simp] theorem powerOn_keys (s : State) : (powerOn s).keys = s.keys := rfl
@[simp] theorem powerOn_fault (s : State) : (powerOn s).fault = none := rfl
@[simp] theorem powerOn_mem (s : State) : (powerOn s).mem = [] := rfl
@[simp] theorem powerOn_draws (s : State) : (powerOn s).draws = s.draws := rfl
@[simp] theorem powerOn_outputs (s : State) : (powerOn s).outputs = s.outputs := rfl

@[simp] theorem hostReset_v (s : State) : (hostReset s).v = State.reset.v := rfl
@[simp] theorem hostReset_i (s : State) : (hostReset s).i = 0x0000#16 := rfl
@[simp] theorem hostReset_pc (s : State) : (hostReset s).pc = Config.progBase := rfl
@[simp] theorem hostReset_sp (s : State) : (hostReset s).sp = 0 := rfl
@[simp] theorem hostReset_stack (s : State) : (hostReset s).stack = State.reset.stack := rfl
@[simp] theorem hostReset_dt (s : State) : (hostReset s).dt = 0x00#8 := rfl
@[simp] theorem hostReset_st (s : State) : (hostReset s).st = 0x00#8 := rfl
@[simp] theorem hostReset_fb (s : State) : (hostReset s).fb = Framebuffer.blank := rfl
@[simp] theorem hostReset_keys (s : State) : (hostReset s).keys = s.keys := rfl
@[simp] theorem hostReset_fault (s : State) : (hostReset s).fault = none := rfl
@[simp] theorem hostReset_mem (s : State) : (hostReset s).mem = s.mem := rfl
@[simp] theorem hostReset_draws (s : State) : (hostReset s).draws = s.draws := rfl
@[simp] theorem hostReset_outputs (s : State) : (hostReset s).outputs = s.outputs := rfl

@[simp] theorem timerTick_v (s : State) : (timerTick s).v = s.v := rfl
@[simp] theorem timerTick_i (s : State) : (timerTick s).i = s.i := rfl
@[simp] theorem timerTick_pc (s : State) : (timerTick s).pc = s.pc := rfl
@[simp] theorem timerTick_sp (s : State) : (timerTick s).sp = s.sp := rfl
@[simp] theorem timerTick_stack (s : State) : (timerTick s).stack = s.stack := rfl
@[simp] theorem timerTick_dt (s : State) : (timerTick s).dt = tickTimer s.dt := rfl
@[simp] theorem timerTick_st (s : State) : (timerTick s).st = tickTimer s.st := rfl
@[simp] theorem timerTick_fb (s : State) : (timerTick s).fb = s.fb := rfl
@[simp] theorem timerTick_keys (s : State) : (timerTick s).keys = s.keys := rfl
@[simp] theorem timerTick_fault (s : State) : (timerTick s).fault = s.fault := rfl
@[simp] theorem timerTick_mem (s : State) : (timerTick s).mem = s.mem := rfl
@[simp] theorem timerTick_draws (s : State) : (timerTick s).draws = s.draws := rfl
@[simp] theorem timerTick_outputs (s : State) : (timerTick s).outputs = s.outputs := rfl

@[simp] theorem setKeys_v (k : Vector Bool 16) (s : State) : (setKeys k s).v = s.v := rfl
@[simp] theorem setKeys_i (k : Vector Bool 16) (s : State) : (setKeys k s).i = s.i := rfl
@[simp] theorem setKeys_pc (k : Vector Bool 16) (s : State) : (setKeys k s).pc = s.pc := rfl
@[simp] theorem setKeys_sp (k : Vector Bool 16) (s : State) : (setKeys k s).sp = s.sp := rfl
@[simp] theorem setKeys_stack (k : Vector Bool 16) (s : State) : (setKeys k s).stack = s.stack := rfl
@[simp] theorem setKeys_dt (k : Vector Bool 16) (s : State) : (setKeys k s).dt = s.dt := rfl
@[simp] theorem setKeys_st (k : Vector Bool 16) (s : State) : (setKeys k s).st = s.st := rfl
@[simp] theorem setKeys_fb (k : Vector Bool 16) (s : State) : (setKeys k s).fb = s.fb := rfl
@[simp] theorem setKeys_keys (k : Vector Bool 16) (s : State) : (setKeys k s).keys = k := rfl
@[simp] theorem setKeys_fault (k : Vector Bool 16) (s : State) : (setKeys k s).fault = s.fault := rfl
@[simp] theorem setKeys_mem (k : Vector Bool 16) (s : State) : (setKeys k s).mem = s.mem := rfl
@[simp] theorem setKeys_draws (k : Vector Bool 16) (s : State) : (setKeys k s).draws = s.draws := rfl
@[simp] theorem setKeys_outputs (k : Vector Bool 16) (s : State) : (setKeys k s).outputs = s.outputs := rfl

end Sys2Proof.Machine
end

