-- ==== Sys2Proof/Laws/Memory.lean ====
section
/-!
SUPPORT. Memory: what a byte reads as after a write, and that every memory operation keeps the canonical form.
-/

namespace Sys2Proof.Machine

theorem Memory.wfFrom_cons {lo k : Nat} {b : Byte} {rest : Memory} :
    Memory.wfFrom lo ((k, b) :: rest) = true ↔
      lo ≤ k ∧ k < 4096 ∧ b ≠ initialByte k ∧ Memory.wfFrom (k + 1) rest = true := by
  simp [Memory.wfFrom, and_assoc]

theorem Memory.wfFrom_mono {lo hi : Nat} (h : lo ≤ hi) :
    ∀ {m : Memory}, Memory.wfFrom hi m = true → Memory.wfFrom lo m = true
  | [], _ => rfl
  | (k, b) :: rest, w => by
    rw [Memory.wfFrom_cons] at *
    exact ⟨h.trans w.1, w.2⟩

/-- Below its first address a canonical memory reads as at power-on. -/
theorem readByte_of_lt {lo a : Nat} (h : a < lo) :
    ∀ {m : Memory}, Memory.wfFrom lo m = true → readByte m a = initialByte a
  | [], _ => rfl
  | (k, b) :: rest, w => by
    rw [Memory.wfFrom_cons] at w
    have : a < k := h.trans_le w.1
    simp [readByte, this, this.ne]

theorem readByte_consByte {a : Nat} {b : Byte} {rest : Memory} (w : Memory.wfFrom (a + 1) rest = true) (c : Nat) :
    readByte (consByte a b rest) c = if c = a then b else readByte rest c := by
  unfold consByte
  split
  · next hb =>
    split
    · next hc => rw [hc, readByte_of_lt (Nat.lt_succ_self a) w, hb]
    · rfl
  · split
    · next hc => simp [readByte, hc]
    · next hc =>
      by_cases hlt : c < a
      · simp [readByte, hc, hlt, readByte_of_lt (hlt.trans (Nat.lt_succ_self a)) w]
      · simp [readByte, hc, hlt]

theorem wfFrom_consByte {lo a : Nat} {b : Byte} {rest : Memory} (hlo : lo ≤ a) (ha : a < 4096)
    (w : Memory.wfFrom (a + 1) rest = true) : Memory.wfFrom lo (consByte a b rest) = true := by
  unfold consByte
  split
  · exact Memory.wfFrom_mono (hlo.trans (Nat.le_succ a)) w
  · next hb => exact Memory.wfFrom_cons.2 ⟨hlo, ha, hb, w⟩

theorem wfFrom_writeByte {a : Nat} {b : Byte} (ha : a < 4096) :
    ∀ {m : Memory} {lo : Nat}, lo ≤ a → Memory.wfFrom lo m = true → Memory.wfFrom lo (writeByte m a b) = true
  | [], _, hlo, _ => wfFrom_consByte hlo ha rfl
  | (k, c) :: rest, lo, hlo, w => by
    have w' := Memory.wfFrom_cons.1 w
    unfold writeByte
    split
    · next h => exact wfFrom_consByte hlo ha (Memory.wfFrom_cons.2 ⟨h, w'.2⟩)
    · split
      · next h => exact wfFrom_consByte hlo ha (h ▸ w'.2.2.2)
      · exact Memory.wfFrom_cons.2 ⟨w'.1, w'.2.1, w'.2.2.1, wfFrom_writeByte ha (by omega) w'.2.2.2⟩

theorem readByte_writeByte_from {a : Nat} {b : Byte} (c : Nat) :
    ∀ {m : Memory} {lo : Nat}, Memory.wfFrom lo m = true →
      readByte (writeByte m a b) c = if c = a then b else readByte m c
  | [], _, _ => readByte_consByte rfl c
  | (k, d) :: rest, lo, w => by
    have w' := Memory.wfFrom_cons.1 w
    unfold writeByte
    split
    · next h => exact readByte_consByte (Memory.wfFrom_cons.2 ⟨h, w'.2⟩) c
    · split
      · next h =>
        subst h
        rw [readByte_consByte w'.2.2.2]
        split
        · rfl
        · next hc =>
          by_cases hlt : c < a
          · simp [readByte, hc, hlt, readByte_of_lt (hlt.trans (Nat.lt_succ_self a)) w'.2.2.2]
          · simp [readByte, hc, hlt]
      · have ih := readByte_writeByte_from (a := a) (b := b) c w'.2.2.2
        simp only [readByte, ih]
        split
        · rw [if_neg (by omega)]
        · split
          · rw [if_neg (by omega)]
          · rfl

/-- `MemWrite` keeps the canonical form on the 4096 bytes (R60). -/
theorem wf_writeByte {m : Memory} {a : Nat} (b : Byte) (ha : a < 4096) (w : Memory.wf m = true) :
    Memory.wf (writeByte m a b) = true := wfFrom_writeByte ha (Nat.zero_le a) w

/-- `MemRead` after `MemWrite`: the byte written at its address, the old byte elsewhere (R60). -/
theorem readByte_writeByte {m : Memory} (w : Memory.wf m = true) (a : Nat) (b : Byte) (c : Nat) :
    readByte (writeByte m a b) c = if c = a then b else readByte m c := readByte_writeByte_from c w

theorem wf_writeBytes : ∀ (bs : List Byte) {m : Memory} {a : Nat}, a + bs.length ≤ 4096 → Memory.wf m = true →
    Memory.wf (writeBytes m a bs) = true
  | [], _, _, _, w => w
  | b :: bs, m, a, h, w => by
    rw [List.length_cons] at h
    exact wf_writeBytes bs (by omega) (wf_writeByte b (by omega) w)

/-- Reading after a run of bytes was stored at `a`: the `k`-th of them at `a + k`, the old byte elsewhere (R56). -/
theorem readByte_writeBytes : ∀ (bs : List Byte) {m : Memory} {a : Nat} (_ : a + bs.length ≤ 4096)
    (_ : Memory.wf m = true) (c : Nat), readByte (writeBytes m a bs) c =
      if a ≤ c ∧ c < a + bs.length then bs.getD (c - a) 0 else readByte m c
  | [], m, a, _, _, c => by simp [writeBytes, show ¬(a ≤ c ∧ c < a) by omega]
  | b :: bs, m, a, h, w, c => by
    rw [List.length_cons] at h
    rw [writeBytes, readByte_writeBytes bs (by omega) (wf_writeByte b (by omega) w), readByte_writeByte w,
      List.length_cons]
    rcases Nat.lt_trichotomy c a with hc | rfl | hc
    · rw [if_neg (by omega), if_neg (by omega), if_neg (by omega)]
    · rw [if_neg (by omega), if_pos rfl, if_pos (by omega)]; simp
    · obtain ⟨d, rfl⟩ : ∃ d, c = a + 1 + d := ⟨c - (a + 1), by omega⟩
      by_cases hd : d < bs.length
      · rw [if_pos (by omega), if_pos (by omega), show a + 1 + d - (a + 1) = d by omega,
          show a + 1 + d - a = d + 1 by omega, List.getD_cons_succ]
      · rw [if_neg (by omega), if_neg (by omega), if_neg (by omega)]

@[simp] theorem length_readBytes (m : Memory) (a n : Nat) : (readBytes m a n).length = n := by simp [readBytes]

theorem getD_readBytes {n k : Nat} (m : Memory) (a : Nat) (d : Byte) (h : k < n) :
    (readBytes m a n).getD k d = readByte m (a + k) := by
  simp [readBytes, List.getD, h]

theorem getD_readBytes_of_le {n k : Nat} (m : Memory) (a : Nat) (d : Byte) (h : n ≤ k) :
    (readBytes m a n).getD k d = d := by
  simp [readBytes, List.getD, h]

/-- The contents at power-on are canonical: nothing is listed. -/
theorem wf_nil : Memory.wf [] = true := rfl

end Sys2Proof.Machine
end

