-- ==== Sys2Proof/Laws/Registers.lean ====
section
/-!
SUPPORT. The register file and the flag values: what a register reads as after each register operation.
-/

namespace Sys2Proof.Machine

/-- Two states with the same register file read the same registers. -/
theorem readReg_congr {s t : State} (h : t.v = s.v) (r : Nibble) : readReg t r = readReg s r := by
  simp [readReg, h]

theorem readReg_setReg (x r : Nibble) (b : Byte) (s : State) :
    readReg (setReg x b s) r = if r = x then b else readReg s r := by
  simp only [readReg, setReg, Vector.getElem_set, BitVec.toNat_inj, eq_comm (a := x)]

@[simp] theorem readReg_setReg_same (x : Nibble) (b : Byte) (s : State) : readReg (setReg x b s) x = b := by
  rw [readReg_setReg, if_pos rfl]

theorem readReg_setReg_other {x r : Nibble} (h : r ≠ x) (b : Byte) (s : State) :
    readReg (setReg x b s) r = readReg s r := by
  rw [readReg_setReg, if_neg h]

theorem readReg_setFlag (r : Nibble) (b : Byte) (s : State) :
    readReg (setFlag b s) r = if r = 0xF#4 then b else readReg s r := readReg_setReg _ _ _ _

theorem readReg_loadRegisters (bytes : List Byte) (s : State) (r : Nibble) :
    readReg (loadRegisters bytes s) r = bytes.getD r.toNat (readReg s r) := by
  simp [readReg, loadRegisters]

@[simp] theorem readReg_setIndex (w : Word) (s : State) (r : Nibble) : readReg (setIndex w s) r = readReg s r := rfl
@[simp] theorem readReg_setPc (w : Word) (s : State) (r : Nibble) : readReg (setPc w s) r = readReg s r := rfl
@[simp] theorem readReg_advance (s : State) (r : Nibble) : readReg (advance s) r = readReg s r := rfl
@[simp] theorem readReg_skipIf (taken : Bool) (s : State) (r : Nibble) : readReg (skipIf taken s) r = readReg s r := rfl
@[simp] theorem readReg_emit (o : Output) (s : State) (r : Nibble) : readReg (emit o s) r = readReg s r := rfl

theorem length_firstRegisters (x : Nibble) (s : State) : (firstRegisters x s).length = x.toNat + 1 := by
  have := x.isLt
  simp [firstRegisters]
  omega

theorem getD_firstRegisters {x k : Nibble} (s : State) (d : Byte) (h : k.toNat ≤ x.toNat) :
    (firstRegisters x s).getD k.toNat d = readReg s k := by
  have := k.isLt
  have hv : s.v[k.toNat]? = some (readReg s k) := Vector.getElem?_eq_getElem (by omega)
  simp [firstRegisters, List.getD, show k.toNat < x.toNat + 1 by omega, hv]

@[simp] theorem length_decimalDigits (a : Byte) : (decimalDigits a).length = 3 := rfl

/-! The flags as the numbers of R22's table. -/

theorem toNat_flagOf (b : Bool) : (flagOf b).toNat = if b then 1 else 0 := by cases b <;> rfl

theorem toNat_carryFlag (a b : Byte) : (carryFlag a b).toNat = if a.toNat + b.toNat ≥ 256 then 1 else 0 := by
  simp [carryFlag, toNat_flagOf]

theorem toNat_noBorrowFlag (a b : Byte) : (noBorrowFlag a b).toNat = if b.toNat > a.toNat then 0 else 1 := by
  unfold noBorrowFlag
  rw [toNat_flagOf]
  by_cases h : b.toNat ≤ a.toNat <;> simp [h]

theorem toNat_lowBitFlag (a : Byte) : (lowBitFlag a).toNat = a.toNat % 2 := by
  simp [lowBitFlag, BitVec.toNat_and, Nat.and_one_is_mod]

theorem toNat_highBitFlag (a : Byte) : (highBitFlag a).toNat = a.toNat / 128 := by
  simp [highBitFlag, BitVec.toNat_ushiftRight, Nat.shiftRight_eq_div_pow]

theorem toNat_rangeFlag (n : Nat) : (rangeFlag n).toNat = if n > 0xFFF then 1 else 0 := by
  simp [rangeFlag, toNat_flagOf]

theorem toNat_collisionFlag (b : Bool) : (collisionFlag b).toNat = if b then 1 else 0 := toNat_flagOf b

end Sys2Proof.Machine
end

