-- ==== Sys2Proof/Laws/Outcome.lean ====
section
/-!
SUPPORT. What each shared operation answers, said once: raising, the range check, the stores, the key tests, the fetch,
and one step.
-/

namespace Sys2Proof.Machine

/-- The two answers of the range check (R59): the fault with the highest address, or the effect within memory. -/
theorem withinMemory_cases (base count : Nat) (effect : State → State) (s : State) :
    (count ≠ 0 ∧ base + (count - 1) > 0xFFF ∧
      withinMemory base count effect s = .next { s with fault := some (.memRange, base + (count - 1)) }) ∨
    ((count = 0 ∨ base + count ≤ 4096) ∧ withinMemory base count effect s = .next (effect s)) := by
  unfold withinMemory raise
  split
  · next h => exact .inl ⟨h.1, h.2, rfl⟩
  · next h => exact .inr ⟨by omega, rfl⟩

/-- Within memory, or with nothing to access, the range check passes (R59). -/
theorem withinMemory_pass {base count : Nat} (h : count = 0 ∨ base + count ≤ 4096) (effect : State → State) (s : State) :
    withinMemory base count effect s = .next (effect s) := by
  rw [withinMemory, if_neg (by omega)]

/-- Above 0xFFF the range check raises `MEM_RANGE` and touches nothing (R59, R172). -/
theorem withinMemory_fault {base count : Nat} (h : 0 < count) (hi : base + count > 4096) (effect : State → State)
    (s : State) :
    withinMemory base count effect s = .next { s with fault := some (.memRange, base + (count - 1)) } := by
  rw [withinMemory, if_pos ⟨by omega, by omega⟩, raise]

/-- All that a range-checked operation can leave: the latch alone written, or its effect. -/
theorem withinMemory_inv {base count : Nat} {effect : State → State} {s t : State}
    (h : withinMemory base count effect s = .next t) :
    (∃ info, t = { s with fault := some (.memRange, info) }) ∨ t = effect s := by
  rcases withinMemory_cases base count effect s with ⟨_, _, e⟩ | ⟨_, e⟩ <;> rw [e] at h <;> cases h
  · exact .inl ⟨_, rfl⟩
  · exact .inr rfl

/-- The two answers of a store (R59, R143, R144). -/
theorem storeAtIndex_cases {bytes : List Byte} (ne : bytes ≠ []) (s : State) :
    (baseAddress s + (bytes.length - 1) > 0xFFF ∧ storeAtIndex bytes s =
      .next { s with fault := some (.memRange, baseAddress s + (bytes.length - 1)) }) ∨
    (baseAddress s + bytes.length ≤ 4096 ∧ storeAtIndex bytes s =
      .next (advance { s with mem := writeBytes s.mem (baseAddress s) bytes })) := by
  have : bytes.length ≠ 0 := by simpa using ne
  rcases withinMemory_cases (baseAddress s) bytes.length
    (fun u => advance { u with mem := writeBytes u.mem (baseAddress s) bytes }) s with ⟨_, h, e⟩ | ⟨h, e⟩
  · exact .inl ⟨h, e⟩
  · exact .inr ⟨by omega, e⟩

/-- A store within memory (R143, R144). -/
theorem storeAtIndex_pass {bytes : List Byte} {s : State} (h : baseAddress s + bytes.length ≤ 4096) :
    storeAtIndex bytes s = .next (advance { s with mem := writeBytes s.mem (baseAddress s) bytes }) :=
  withinMemory_pass (.inr h) _ s

/-- A store that would reach above 0xFFF (R59, R172). -/
theorem storeAtIndex_fault {bytes : List Byte} {s : State} (ne : 0 < bytes.length)
    (h : baseAddress s + bytes.length > 4096) :
    storeAtIndex bytes s = .next { s with fault := some (.memRange, baseAddress s + (bytes.length - 1)) } :=
  withinMemory_fault ne h _ s

/-- The key test (R160, R161): a named key decides the skip, a larger value raises `KEY_RANGE`. -/
theorem skipOnKey_cases (x : Nibble) (wanted : Bool) (s : State) :
    (∃ h : (readReg s x).toNat < 16,
      skipOnKey x wanted s = .next (skipIf (s.keys[(readReg s x).toNat]'h == wanted) s)) ∨
    ((readReg s x).toNat > 15 ∧
      skipOnKey x wanted s = .next { s with fault := some (.keyRange, (readReg s x).toNat) }) := by
  unfold skipOnKey namedKey raise
  by_cases h : (readReg s x).toNat < 16
  · exact .inl ⟨h, by rw [Vector.getElem?_eq_getElem h]⟩
  · exact .inr ⟨by omega, by rw [Vector.getElem?_eq_none (by omega)]⟩

/-- All that a key test can leave: the latch alone written, or `pc` moved. -/
theorem skipOnKey_inv {x : Nibble} {wanted : Bool} {s t : State} (h : skipOnKey x wanted s = .next t) :
    (∃ info, t = { s with fault := some (.keyRange, info) }) ∨ ∃ taken, t = skipIf taken s := by
  rcases skipOnKey_cases x wanted s with ⟨_, e⟩ | ⟨_, e⟩ <;> rw [e] at h <;> cases h
  · exact .inr ⟨_, rfl⟩
  · exact .inl ⟨_, rfl⟩

theorem lowestKey_eq_none {s : State} : lowestKey s = none ↔ ∀ k : Fin 16, s.keys[k] = false := by
  simp [lowestKey, List.find?_eq_none]

/-- The key found is pressed and no lower one is (R165). -/
theorem lowestKey_eq_some {s : State} {k : Fin 16} (h : lowestKey s = some k) :
    s.keys[k] = true ∧ ∀ j : Fin 16, j < k → s.keys[j] = false := by
  unfold lowestKey at h
  refine ⟨by simpa using List.find?_some h, fun j hj => ?_⟩
  obtain ⟨_, as, bs, e, hno⟩ := List.find?_eq_some_iff_append.1 h
  have hpw : (List.finRange 16).Pairwise (· < ·) := List.pairwise_lt_finRange 16
  have hmem : j ∈ as ++ k :: bs := e ▸ List.mem_finRange j
  rw [e, List.pairwise_append] at hpw
  rcases List.mem_append.1 hmem with hj' | hj'
  · simpa using hno j hj'
  · rcases List.mem_cons.1 hj' with rfl | hj'
    · exact absurd hj (lt_irrefl _)
    · exact absurd hj (not_lt_of_gt (List.rel_of_pairwise_cons hpw.2.1 hj'))

/-- The fetch is the big-endian word of the two bytes at `pc` (R55, R71). -/
theorem fetch_eq_some {s : State} {op : Word} : fetch s = some op ↔
    s.pc.toNat ≤ 0xFFE ∧ op = readByte s.mem s.pc.toNat ++ readByte s.mem (s.pc.toNat + 1) := by
  unfold fetch
  split
  · exact ⟨fun h => by simp at h, fun h => by omega⟩
  · exact ⟨fun h => ⟨by omega, (Option.some.inj h).symm⟩, fun h => by rw [h.2]⟩

theorem fetch_eq_none {s : State} : fetch s = none ↔ s.pc.toNat > 0xFFE := by
  unfold fetch
  split <;> simp_all

/-- The four answers of one `Step` (R75, R179): latched, out of fetch range, an instruction, an unknown opcode. -/
theorem step_cases (s : State) :
    (s.fault ≠ none ∧ step s = .next s) ∨
    (s.fault = none ∧ s.pc.toNat > 0xFFE ∧ step s = .next { s with fault := some (.fetchRange, s.pc.toNat) }) ∨
    (s.fault = none ∧ ∃ op i, fetch s = some op ∧ decodeWord op = some i ∧ step s = exec i s) ∨
    (s.fault = none ∧ ∃ op, fetch s = some op ∧ decodeWord op = none ∧ step s = skipUnknown op s) := by
  unfold step
  cases hf : s.fault with
  | some f => exact .inl ⟨by simp, rfl⟩
  | none =>
    cases ho : fetch s with
    | none => exact .inr (.inl ⟨rfl, fetch_eq_none.1 ho, rfl⟩)
    | some op =>
      cases hd : decodeWord op with
      | some i => exact .inr (.inr (.inl ⟨rfl, op, i, rfl, hd, by simp [execWord, hd]⟩))
      | none => exact .inr (.inr (.inr ⟨rfl, op, rfl, hd, by simp [execWord, hd]⟩))

end Sys2Proof.Machine
end

