-- ==== Sys2Proof/Laws/Display.lean ====
section
/-!
SUPPORT. The framebuffer: what a cell reads as after one cell, one sprite bit and one sprite row.
-/

namespace Sys2Proof.Machine

theorem Framebuffer.cell_setCell (fb : Framebuffer) (cx ux : Fin 64) (cy uy : Fin 32) (on : Bool) :
    Framebuffer.cell (Framebuffer.setCell fb ux uy on) cx cy =
      if cx = ux ∧ cy = uy then on else Framebuffer.cell fb cx cy := by
  unfold Framebuffer.cell Framebuffer.setCell
  by_cases hx : cx = ux
  · subst hx
    by_cases hy : cy = uy
    · subst hy; simp
    · have : uy.val ≠ cy.val := fun h => hy (Fin.ext h.symm)
      simp [hy, Vector.getElem_set_ne, this]
  · have : ux.val ≠ cx.val := fun h => hx (Fin.ext h.symm)
    simp [hx, Vector.getElem_set_ne, this]

@[simp] theorem Framebuffer.cell_blank (cx : Fin 64) (cy : Fin 32) : Framebuffer.cell Framebuffer.blank cx cy = false := by
  simp [Framebuffer.cell, Framebuffer.blank]

/-- Two grids with the same cells are the same grid. -/
theorem Framebuffer.ext_cell {f g : Framebuffer}
    (h : ∀ cx cy, Framebuffer.cell f cx cy = Framebuffer.cell g cx cy) : f = g := by
  apply Vector.ext
  intro a ha
  apply Vector.ext
  intro b hb
  exact h ⟨a, ha⟩ ⟨b, hb⟩

/-- Plotting toggles the one cell and nothing else (R151). -/
theorem Canvas.cell_plot (ux cx : Fin 64) (uy cy : Fin 32) (c : Canvas) :
    Framebuffer.cell (Canvas.plot ux uy c).fb cx cy =
      (Framebuffer.cell c.fb cx cy ^^ decide (cx = ux ∧ cy = uy)) := by
  rw [Canvas.plot, Framebuffer.cell_setCell]
  split
  · next h => simp [h]
  · next h => simp [h]

@[simp] theorem val_wrapColumn (n : Nat) : (wrapColumn n).val = n % 64 := rfl
@[simp] theorem val_wrapRow (n : Nat) : (wrapRow n).val = n % 32 := rfl

/-- The columns of one row are all different, as 8 < 64 (R151 corner (4)). -/
theorem column_ne {sx j k : Nat} (hj : j < 8) (hk : k < 8) (h : j ≠ k) :
    wrapColumn (sx + j) ≠ wrapColumn (sx + k) := by
  intro e
  have := congrArg Fin.val e
  simp only [val_wrapColumn] at this
  omega

/-- The rows of one sprite are all different, as 15 < 32 (R151 corner (4)). -/
theorem row_ne {sy j k : Nat} (h : j < k) (hk : k < j + 32) : wrapRow (sy + j) ≠ wrapRow (sy + k) := by
  intro e
  have := congrArg Fin.val e
  simp only [val_wrapRow] at this
  omega

/-- Bit `k` of a row's byte, leftmost first, is 1 and lands on (`cx`, `cy`) (R151). -/
abbrev BitLands (sx : Nat) (uy : Fin 32) (bits : Byte) (cx : Fin 64) (cy : Fin 32) (k : Nat) : Prop :=
  bits.getLsbD (7 - k) = true ∧ cx = wrapColumn (sx + k) ∧ cy = uy

/-- Bit `k` of a row's byte, leftmost first, is 1 and lands on a lit cell (R151). -/
abbrev BitCollides (fb : Framebuffer) (sx : Nat) (uy : Fin 32) (bits : Byte) (k : Nat) : Prop :=
  bits.getLsbD (7 - k) = true ∧ Framebuffer.cell fb (wrapColumn (sx + k)) uy = true

theorem any_range {n : Nat} {p : Nat → Prop} [DecidablePred p] :
    ((List.range n).any fun k => decide (p k)) = true ↔ ∃ k < n, p k := by
  simp [List.any_eq_true, List.mem_range]

/-- A sprite bit toggles the cell it addresses if it is 1, and nothing else (R151). -/
theorem Canvas.cell_drawBit (sx : Nat) (cx : Fin 64) (uy cy : Fin 32) (bits : Byte) (c : Canvas) (k : Nat) :
    Framebuffer.cell (Canvas.drawBit sx uy bits c k).fb cx cy =
      (Framebuffer.cell c.fb cx cy ^^ decide (BitLands sx uy bits cx cy k)) := by
  unfold Canvas.drawBit
  split
  · next h => rw [Canvas.cell_plot]; simp [BitLands, h]
  · next h => simp [BitLands, h]

/-- A sprite bit sets the collision if it is 1 and its cell is lit, and never clears it (R151). -/
theorem Canvas.hit_drawBit (sx : Nat) (uy : Fin 32) (bits : Byte) (c : Canvas) (k : Nat) :
    (Canvas.drawBit sx uy bits c k).hit = (c.hit || decide (BitCollides c.fb sx uy bits k)) := by
  unfold Canvas.drawBit
  split
  · next h => simp [BitCollides, h, Canvas.plot]
  · next h => simp [BitCollides, h]

/-- The first `m` bits of a row toggle exactly the cells they address. -/
theorem Canvas.cell_foldl (sx : Nat) (cx : Fin 64) (uy cy : Fin 32) (bits : Byte) (c : Canvas) :
    ∀ m ≤ 8, Framebuffer.cell ((List.range m).foldl (Canvas.drawBit sx uy bits) c).fb cx cy =
      (Framebuffer.cell c.fb cx cy ^^ (List.range m).any fun k => decide (BitLands sx uy bits cx cy k))
  | 0, _ => by simp
  | m + 1, hm => by
    rw [List.range_succ, List.foldl_append, List.foldl_cons, List.foldl_nil, Canvas.cell_drawBit,
      Canvas.cell_foldl sx cx uy cy bits c m (by omega), Bool.xor_assoc, List.any_append]
    congr 1
    by_cases h : BitLands sx uy bits cx cy m
    · have no : ((List.range m).any fun k => decide (BitLands sx uy bits cx cy k)) = false := by
        rw [← Bool.not_eq_true, any_range]
        rintro ⟨k, hk, r⟩
        exact column_ne (by omega) (by omega) hk.ne (r.2.1.symm.trans h.2.1)
      rw [no]
      simp
    · rw [decide_eq_false h]
      simp [h]

/-- One sprite row (R151): it toggles exactly the cells its 1 bits address. -/
theorem Canvas.cell_drawRow (sx : Nat) (cx : Fin 64) (uy cy : Fin 32) (bits : Byte) (c : Canvas) :
    Framebuffer.cell (Canvas.drawRow sx uy bits c).fb cx cy =
      (Framebuffer.cell c.fb cx cy ^^ (List.range 8).any fun k => decide (BitLands sx uy bits cx cy k)) :=
  Canvas.cell_foldl sx cx uy cy bits c 8 le_rfl

/-- The first `m` bits of a row set the collision if some cell they address was lit before the row. -/
theorem Canvas.hit_foldl (sx : Nat) (uy : Fin 32) (bits : Byte) (c : Canvas) :
    ∀ m ≤ 8, ((List.range m).foldl (Canvas.drawBit sx uy bits) c).hit =
      (c.hit || (List.range m).any fun k => decide (BitCollides c.fb sx uy bits k))
  | 0, _ => by simp
  | m + 1, hm => by
    have kept : Framebuffer.cell ((List.range m).foldl (Canvas.drawBit sx uy bits) c).fb (wrapColumn (sx + m)) uy =
        Framebuffer.cell c.fb (wrapColumn (sx + m)) uy := by
      have no : ((List.range m).any fun k => decide (BitLands sx uy bits (wrapColumn (sx + m)) uy k)) = false := by
        rw [← Bool.not_eq_true, any_range]
        rintro ⟨k, hk, r⟩
        exact column_ne (by omega) (by omega) hk.ne' r.2.1
      rw [Canvas.cell_foldl sx _ uy uy bits c m (by omega), no, Bool.xor_false]
    rw [List.range_succ, List.foldl_append, List.foldl_cons, List.foldl_nil, Canvas.hit_drawBit,
      Canvas.hit_foldl sx uy bits c m (by omega), Bool.or_assoc, List.any_append]
    congr 2
    simp [BitCollides, kept]

/-- One sprite row (R151): the collision is set if some cell its 1 bits address was lit before the row. -/
theorem Canvas.hit_drawRow (sx : Nat) (uy : Fin 32) (bits : Byte) (c : Canvas) :
    (Canvas.drawRow sx uy bits c).hit =
      (c.hit || (List.range 8).any fun k => decide (BitCollides c.fb sx uy bits k)) :=
  Canvas.hit_foldl sx uy bits c 8 le_rfl

/-- Some 1 bit of the rows' bytes, the first standing at row `row` of the sprite, lands on (`cx`, `cy`) (R151, R152). -/
def RowsLand (sx sy row : Nat) (bytes : List Byte) (cx : Fin 64) (cy : Fin 32) : Prop :=
  ∃ r < bytes.length, ∃ k < 8, BitLands sx (wrapRow (sy + (row + r))) (bytes.getD r 0) cx cy k

/-- Some 1 bit of the rows' bytes lands on a lit cell (R151). -/
def RowsCollide (fb : Framebuffer) (sx sy row : Nat) (bytes : List Byte) : Prop :=
  ∃ r < bytes.length, ∃ k < 8, BitCollides fb sx (wrapRow (sy + (row + r))) (bytes.getD r 0) k

theorem RowsLand_cons {sx sy row : Nat} {b : Byte} {bs : List Byte} {cx : Fin 64} {cy : Fin 32} :
    RowsLand sx sy row (b :: bs) cx cy ↔
      (∃ k < 8, BitLands sx (wrapRow (sy + row)) b cx cy k) ∨ RowsLand sx sy (row + 1) bs cx cy := by
  constructor
  · rintro ⟨r, hr, k, hk, q⟩
    cases r with
    | zero => exact .inl ⟨k, hk, by simpa using q⟩
    | succ r =>
      exact .inr ⟨r, by simpa using hr, k, hk, by
        rw [show row + 1 + r = row + (r + 1) by omega]; simpa using q⟩
  · rintro (⟨k, hk, q⟩ | ⟨r, hr, k, hk, q⟩)
    · exact ⟨0, by simp, k, hk, by simpa using q⟩
    · exact ⟨r + 1, by simpa using hr, k, hk, by
        rw [show row + 1 + r = row + (r + 1) by omega] at q; simpa using q⟩

theorem RowsCollide_cons {fb : Framebuffer} {sx sy row : Nat} {b : Byte} {bs : List Byte} :
    RowsCollide fb sx sy row (b :: bs) ↔
      (∃ k < 8, BitCollides fb sx (wrapRow (sy + row)) b k) ∨ RowsCollide fb sx sy (row + 1) bs := by
  constructor
  · rintro ⟨r, hr, k, hk, q⟩
    cases r with
    | zero => exact .inl ⟨k, hk, by simpa using q⟩
    | succ r =>
      exact .inr ⟨r, by simpa using hr, k, hk, by
        rw [show row + 1 + r = row + (r + 1) by omega]; simpa using q⟩
  · rintro (⟨k, hk, q⟩ | ⟨r, hr, k, hk, q⟩)
    · exact ⟨0, by simp, k, hk, by simpa using q⟩
    · exact ⟨r + 1, by simpa using hr, k, hk, by
        rw [show row + 1 + r = row + (r + 1) by omega] at q; simpa using q⟩

/-- The cells of one sprite row are not those of a later one (R151 corner (4)). -/
theorem not_RowsLand_of_row {sx sy row : Nat} {bs : List Byte} (h : bs.length < 31) (cx : Fin 64) :
    ¬RowsLand sx sy (row + 1) bs cx (wrapRow (sy + row)) := by
  rintro ⟨r, hr, k, hk, q⟩
  exact row_ne (sy := sy) (j := row) (k := row + 1 + r) (by omega) (by omega) q.2.2

/-- Sprite rows (R151, R152): a cell no 1 bit lands on keeps its value. -/
theorem Canvas.cell_drawRows_of_not_land (sx sy : Nat) (cx : Fin 64) (cy : Fin 32) :
    ∀ (bytes : List Byte) (row : Nat) (c : Canvas), ¬RowsLand sx sy row bytes cx cy →
      Framebuffer.cell (Canvas.drawRows sx sy row bytes c).fb cx cy = Framebuffer.cell c.fb cx cy
  | [], _, _, _ => rfl
  | b :: bs, row, c, h => by
    rw [RowsLand_cons, not_or] at h
    have hb : ((List.range 8).any fun k => decide (BitLands sx (wrapRow (sy + row)) b cx cy k)) = false := by
      rw [← Bool.not_eq_true, any_range]; exact h.1
    rw [Canvas.drawRows, Canvas.cell_drawRows_of_not_land sx sy cx cy bs (row + 1) _ h.2, Canvas.cell_drawRow, hb,
      Bool.xor_false]

/-- Sprite rows (R151, R152): a cell is toggled where a 1 bit lands on it. -/
theorem Canvas.cell_drawRows_of_land (sx sy : Nat) (cx : Fin 64) (cy : Fin 32) :
    ∀ (bytes : List Byte) (row : Nat) (c : Canvas), bytes.length < 32 → RowsLand sx sy row bytes cx cy →
      Framebuffer.cell (Canvas.drawRows sx sy row bytes c).fb cx cy = !Framebuffer.cell c.fb cx cy
  | [], _, _, _, h => by obtain ⟨r, hr, _⟩ := h; simp at hr
  | b :: bs, row, c, hlen, h => by
    have keep := Canvas.cell_drawRows_of_not_land sx sy cx cy bs (row + 1)
      (Canvas.drawRow sx (wrapRow (sy + row)) b c)
    have flip := Canvas.cell_drawRows_of_land sx sy cx cy bs (row + 1)
      (Canvas.drawRow sx (wrapRow (sy + row)) b c) (by simp at hlen; omega)
    rw [Canvas.drawRows]
    by_cases first : ∃ k < 8, BitLands sx (wrapRow (sy + row)) b cx cy k
    · have hcy : cy = wrapRow (sy + row) := by obtain ⟨_, _, q⟩ := first; exact q.2.2
      rw [keep (hcy ▸ not_RowsLand_of_row (by simp at hlen; omega) cx), Canvas.cell_drawRow, any_range.2 first,
        Bool.xor_true]
    · have hb : ((List.range 8).any fun k => decide (BitLands sx (wrapRow (sy + row)) b cx cy k)) = false := by
        rw [← Bool.not_eq_true, any_range]; exact first
      rw [flip ((RowsLand_cons.1 h).resolve_left first), Canvas.cell_drawRow, hb, Bool.xor_false]

/-- Sprite rows (R151): the collision is set exactly where it was, or where a 1 bit lands on a cell lit before the draw. -/
theorem Canvas.hit_drawRows (sx sy : Nat) :
    ∀ (bytes : List Byte) (row : Nat) (c : Canvas), bytes.length < 32 →
      ((Canvas.drawRows sx sy row bytes c).hit = true ↔ c.hit = true ∨ RowsCollide c.fb sx sy row bytes)
  | [], _, c, _ => by simp [Canvas.drawRows, RowsCollide]
  | b :: bs, row, c, hlen => by
    rw [List.length_cons] at hlen
    have same : RowsCollide (Canvas.drawRow sx (wrapRow (sy + row)) b c).fb sx sy (row + 1) bs ↔
        RowsCollide c.fb sx sy (row + 1) bs := by
      have kept : ∀ r < bs.length, ∀ cx : Fin 64,
          Framebuffer.cell (Canvas.drawRow sx (wrapRow (sy + row)) b c).fb cx (wrapRow (sy + (row + 1 + r))) =
            Framebuffer.cell c.fb cx (wrapRow (sy + (row + 1 + r))) := by
        intro r hr cx
        have hb : ((List.range 8).any fun k =>
            decide (BitLands sx (wrapRow (sy + row)) b cx (wrapRow (sy + (row + 1 + r))) k)) = false := by
          rw [← Bool.not_eq_true, any_range]
          rintro ⟨k, _, q⟩
          exact row_ne (sy := sy) (j := row) (k := row + 1 + r) (by omega) (by omega) q.2.2.symm
        rw [Canvas.cell_drawRow, hb, Bool.xor_false]
      unfold RowsCollide BitCollides
      constructor
      · rintro ⟨r, hr, k, hk, q, e⟩
        exact ⟨r, hr, k, hk, q, kept r hr _ ▸ e⟩
      · rintro ⟨r, hr, k, hk, q, e⟩
        exact ⟨r, hr, k, hk, q, (kept r hr _).trans e⟩
    rw [Canvas.drawRows, Canvas.hit_drawRows sx sy bs (row + 1) _ (by omega), same, RowsCollide_cons, Canvas.hit_drawRow,
      Bool.or_eq_true, any_range, or_assoc]

end Sys2Proof.Machine
end

