-- ==== Sys2Proof/Laws/Events.lean ====
section
/-!
SUPPORT. The host's events: a tick as a number, the lifecycle after launch, and runs cut in two.
-/

namespace Sys2Proof.Machine

/-- A tick takes one, never below 0 (R184). -/
theorem toNat_tickTimer (t : Byte) : (tickTimer t).toNat = t.toNat - 1 := by
  unfold tickTimer
  split
  · next h => simp [BitVec.toNat_sub]; omega
  · next h => omega

/-- Once launched, always launched (R192). -/
theorem phase_after_launched {e : Event} {q : Phase} (h : Phase.after .launched e = some q) : q = .launched := by
  cases e <;> cases h <;> rfl

/-- A run after launch may be cut anywhere. -/
theorem runEvents_launched_append {earlier later : List Event} {s t : State} :
    runEvents .launched (earlier ++ later) s = .next t ↔
      ∃ u, runEvents .launched earlier s = .next u ∧ runEvents .launched later u = .next t := by
  induction earlier generalizing s with
  | nil => simp [runEvents]
  | cons e rest ih =>
    simp only [List.cons_append, runEvents]
    cases hp : Phase.after .launched e with
    | none => simp
    | some q =>
      cases phase_after_launched hp
      cases applyEvent e s with
      | next u => exact ih
      | fault r => simp
      | refused r => cases r <;> simp [ih, Phase.afterFailedLoad]

end Sys2Proof.Machine
end

