-- ==== Sys2Proof/Laws/Frames.lean ====
section
/-!
SUPPORT. The arm of each instruction, and the ways to build a frame from equal fields.
-/

namespace Sys2Proof.Machine

@[simp] theorem exec_cls (s : State) : exec (.cls) s = execCls s := rfl
@[simp] theorem exec_ret (s : State) : exec (.ret) s = execRet s := rfl
@[simp] theorem exec_jp (nnn : Imm12) (s : State) : exec (.jp nnn) s = execJp nnn s := rfl
@[simp] theorem exec_call (nnn : Imm12) (s : State) : exec (.call nnn) s = execCall nnn s := rfl
@[simp] theorem exec_seImm (x : Nibble) (nn : Byte) (s : State) : exec (.seImm x nn) s = execSeImm x nn s := rfl
@[simp] theorem exec_sneImm (x : Nibble) (nn : Byte) (s : State) : exec (.sneImm x nn) s = execSneImm x nn s := rfl
@[simp] theorem exec_seReg (x y : Nibble) (s : State) : exec (.seReg x y) s = execSeReg x y s := rfl
@[simp] theorem exec_ldImm (x : Nibble) (nn : Byte) (s : State) : exec (.ldImm x nn) s = execLdImm x nn s := rfl
@[simp] theorem exec_addImm (x : Nibble) (nn : Byte) (s : State) : exec (.addImm x nn) s = execAddImm x nn s := rfl
@[simp] theorem exec_ldReg (x y : Nibble) (s : State) : exec (.ldReg x y) s = execLdReg x y s := rfl
@[simp] theorem exec_orReg (x y : Nibble) (s : State) : exec (.orReg x y) s = execOrReg x y s := rfl
@[simp] theorem exec_andReg (x y : Nibble) (s : State) : exec (.andReg x y) s = execAndReg x y s := rfl
@[simp] theorem exec_xorReg (x y : Nibble) (s : State) : exec (.xorReg x y) s = execXorReg x y s := rfl
@[simp] theorem exec_addReg (x y : Nibble) (s : State) : exec (.addReg x y) s = execAddReg x y s := rfl
@[simp] theorem exec_subReg (x y : Nibble) (s : State) : exec (.subReg x y) s = execSubReg x y s := rfl
@[simp] theorem exec_shr (x y : Nibble) (s : State) : exec (.shr x y) s = execShr x y s := rfl
@[simp] theorem exec_subnReg (x y : Nibble) (s : State) : exec (.subnReg x y) s = execSubnReg x y s := rfl
@[simp] theorem exec_shl (x y : Nibble) (s : State) : exec (.shl x y) s = execShl x y s := rfl
@[simp] theorem exec_sneReg (x y : Nibble) (s : State) : exec (.sneReg x y) s = execSneReg x y s := rfl
@[simp] theorem exec_ldI (nnn : Imm12) (s : State) : exec (.ldI nnn) s = execLdI nnn s := rfl
@[simp] theorem exec_jpV0 (nnn : Imm12) (s : State) : exec (.jpV0 nnn) s = execJpV0 nnn s := rfl
@[simp] theorem exec_rnd (x : Nibble) (nn : Byte) (s : State) : exec (.rnd x nn) s = execRnd x nn s := rfl
@[simp] theorem exec_drw (x y n : Nibble) (s : State) : exec (.drw x y n) s = execDrw x y n s := rfl
@[simp] theorem exec_skp (x : Nibble) (s : State) : exec (.skp x) s = execSkp x s := rfl
@[simp] theorem exec_sknp (x : Nibble) (s : State) : exec (.sknp x) s = execSknp x s := rfl
@[simp] theorem exec_ldVxDt (x : Nibble) (s : State) : exec (.ldVxDt x) s = execLdVxDt x s := rfl
@[simp] theorem exec_ldVxK (x : Nibble) (s : State) : exec (.ldVxK x) s = execLdVxK x s := rfl
@[simp] theorem exec_ldDtVx (x : Nibble) (s : State) : exec (.ldDtVx x) s = execLdDtVx x s := rfl
@[simp] theorem exec_ldStVx (x : Nibble) (s : State) : exec (.ldStVx x) s = execLdStVx x s := rfl
@[simp] theorem exec_addI (x : Nibble) (s : State) : exec (.addI x) s = execAddI x s := rfl
@[simp] theorem exec_ldF (x : Nibble) (s : State) : exec (.ldF x) s = execLdF x s := rfl
@[simp] theorem exec_ldB (x : Nibble) (s : State) : exec (.ldB x) s = execLdB x s := rfl
@[simp] theorem exec_storeRegs (x : Nibble) (s : State) : exec (.storeRegs x) s = execStoreRegs x s := rfl
@[simp] theorem exec_loadRegs (x : Nibble) (s : State) : exec (.loadRegs x) s = execLoadRegs x s := rfl

/-- A frame from equal fields: each part is named, or its fields are the same. -/
theorem onlyChanges_of_fields {parts : List Part} {s t : State}
    (registers : .registers ∈ parts ∨ t.v = s.v) (index : .index ∈ parts ∨ t.i = s.i)
    (stack : .stack ∈ parts ∨ t.sp = s.sp ∧ t.stack = s.stack) (delay : .delay ∈ parts ∨ t.dt = s.dt)
    (sound : .sound ∈ parts ∨ t.st = s.st) (screen : .screen ∈ parts ∨ t.fb = s.fb)
    (keys : .keys ∈ parts ∨ t.keys = s.keys) (latch : .latch ∈ parts ∨ t.fault = s.fault)
    (memory : .memory ∈ parts ∨ t.mem = s.mem) (draws : .draws ∈ parts ∨ t.draws = s.draws)
    (outputs : .outputs ∈ parts ∨ t.outputs = s.outputs) : OnlyChanges parts s t := by
  intro p hp
  cases p with
  | registers => exact fun r => readReg_congr (registers.resolve_left hp) r
  | index => exact index.resolve_left hp
  | stack => exact stack.resolve_left hp
  | delay => exact delay.resolve_left hp
  | sound => exact sound.resolve_left hp
  | screen => exact fun cx cy => by rw [screen.resolve_left hp]
  | keys => exact keys.resolve_left hp
  | latch => exact latch.resolve_left hp
  | memory => exact fun a => by rw [memory.resolve_left hp]
  | draws => exact draws.resolve_left hp
  | outputs => exact outputs.resolve_left hp

/-- Two states that agree on a part, then on the same part, agree on it. -/
theorem samePart_trans {s t u : State} {p : Part} (h : SamePart s t p) (k : SamePart t u p) : SamePart s u p := by
  cases p with
  | registers => exact fun r => (k r).trans (h r)
  | stack => exact ⟨k.1.trans h.1, k.2.trans h.2⟩
  | screen => exact fun cx cy => (k cx cy).trans (h cx cy)
  | memory => exact fun a => (k a).trans (h a)
  | index | delay | sound | keys | latch | draws | outputs => exact Eq.trans k h

/-- Frames compose. -/
theorem onlyChanges_trans {parts : List Part} {s t u : State} (h : OnlyChanges parts s t) (k : OnlyChanges parts t u) :
    OnlyChanges parts s u := fun p hp => samePart_trans (h p hp) (k p hp)

/-- The word at `pc`, over the integers, is the word the fetch gives (R55, R71). -/
theorem wordAtPc_iff {s : State} {op : Word} : WordAtPc s op ↔ fetch s = some op := by
  rw [fetch_eq_some]
  unfold WordAtPc
  refine and_congr_right fun _ => ?_
  rw [← toNat_wordOfBytes]
  exact ⟨fun h => BitVec.eq_of_toNat_eq h, fun h => by rw [h]; rfl⟩

end Sys2Proof.Machine
end

