-- ==== Sys2Proof/Laws/PerInstr.lean ====
section
/-!
SUPPORT. Per instruction: the word the encoder gives an instruction belongs to that instruction's row of the opcode map
(R75), whose mask and match were read from the table and not from the encoder.
-/

namespace Sys2Proof.Laws

/-- The encoded word matches the instruction's own row: `op & mask = match` (R75). -/
def EncodingRow.Statement (i : Instr) : Prop := encode i &&& i.row.mask = i.row.pattern

theorem EncodingRow.cls : EncodingRow.Statement (.cls) := rfl
theorem EncodingRow.ret : EncodingRow.Statement (.ret) := rfl
theorem EncodingRow.jp (nnn : Imm12) : EncodingRow.Statement (.jp nnn) := (layoutA_and_mask _ _).trans rfl
theorem EncodingRow.call (nnn : Imm12) : EncodingRow.Statement (.call nnn) := (layoutA_and_mask _ _).trans rfl
theorem EncodingRow.seImm (x : Nibble) (nn : Byte) : EncodingRow.Statement (.seImm x nn) := (layoutXI_and_top _ _ _).trans rfl
theorem EncodingRow.sneImm (x : Nibble) (nn : Byte) : EncodingRow.Statement (.sneImm x nn) := (layoutXI_and_top _ _ _).trans rfl
theorem EncodingRow.seReg (x y : Nibble) : EncodingRow.Statement (.seReg x y) := (layoutXY_and_low _ _ _ _).trans rfl
theorem EncodingRow.ldImm (x : Nibble) (nn : Byte) : EncodingRow.Statement (.ldImm x nn) := (layoutXI_and_top _ _ _).trans rfl
theorem EncodingRow.addImm (x : Nibble) (nn : Byte) : EncodingRow.Statement (.addImm x nn) := (layoutXI_and_top _ _ _).trans rfl
theorem EncodingRow.ldReg (x y : Nibble) : EncodingRow.Statement (.ldReg x y) := (layoutXY_and_low _ _ _ _).trans rfl
theorem EncodingRow.orReg (x y : Nibble) : EncodingRow.Statement (.orReg x y) := (layoutXY_and_low _ _ _ _).trans rfl
theorem EncodingRow.andReg (x y : Nibble) : EncodingRow.Statement (.andReg x y) := (layoutXY_and_low _ _ _ _).trans rfl
theorem EncodingRow.xorReg (x y : Nibble) : EncodingRow.Statement (.xorReg x y) := (layoutXY_and_low _ _ _ _).trans rfl
theorem EncodingRow.addReg (x y : Nibble) : EncodingRow.Statement (.addReg x y) := (layoutXY_and_low _ _ _ _).trans rfl
theorem EncodingRow.subReg (x y : Nibble) : EncodingRow.Statement (.subReg x y) := (layoutXY_and_low _ _ _ _).trans rfl
theorem EncodingRow.shr (x y : Nibble) : EncodingRow.Statement (.shr x y) := (layoutXY_and_low _ _ _ _).trans rfl
theorem EncodingRow.subnReg (x y : Nibble) : EncodingRow.Statement (.subnReg x y) := (layoutXY_and_low _ _ _ _).trans rfl
theorem EncodingRow.shl (x y : Nibble) : EncodingRow.Statement (.shl x y) := (layoutXY_and_low _ _ _ _).trans rfl
theorem EncodingRow.sneReg (x y : Nibble) : EncodingRow.Statement (.sneReg x y) := (layoutXY_and_low _ _ _ _).trans rfl
theorem EncodingRow.ldI (nnn : Imm12) : EncodingRow.Statement (.ldI nnn) := (layoutA_and_mask _ _).trans rfl
theorem EncodingRow.jpV0 (nnn : Imm12) : EncodingRow.Statement (.jpV0 nnn) := (layoutA_and_mask _ _).trans rfl
theorem EncodingRow.rnd (x : Nibble) (nn : Byte) : EncodingRow.Statement (.rnd x nn) := (layoutXI_and_top _ _ _).trans rfl
theorem EncodingRow.drw (x y n : Nibble) : EncodingRow.Statement (.drw x y n) := (layoutXY_and_top _ _ _ _).trans rfl
theorem EncodingRow.skp (x : Nibble) : EncodingRow.Statement (.skp x) := (layoutXI_and_low _ _ _).trans rfl
theorem EncodingRow.sknp (x : Nibble) : EncodingRow.Statement (.sknp x) := (layoutXI_and_low _ _ _).trans rfl
theorem EncodingRow.ldVxDt (x : Nibble) : EncodingRow.Statement (.ldVxDt x) := (layoutXI_and_low _ _ _).trans rfl
theorem EncodingRow.ldVxK (x : Nibble) : EncodingRow.Statement (.ldVxK x) := (layoutXI_and_low _ _ _).trans rfl
theorem EncodingRow.ldDtVx (x : Nibble) : EncodingRow.Statement (.ldDtVx x) := (layoutXI_and_low _ _ _).trans rfl
theorem EncodingRow.ldStVx (x : Nibble) : EncodingRow.Statement (.ldStVx x) := (layoutXI_and_low _ _ _).trans rfl
theorem EncodingRow.addI (x : Nibble) : EncodingRow.Statement (.addI x) := (layoutXI_and_low _ _ _).trans rfl
theorem EncodingRow.ldF (x : Nibble) : EncodingRow.Statement (.ldF x) := (layoutXI_and_low _ _ _).trans rfl
theorem EncodingRow.ldB (x : Nibble) : EncodingRow.Statement (.ldB x) := (layoutXI_and_low _ _ _).trans rfl
theorem EncodingRow.storeRegs (x : Nibble) : EncodingRow.Statement (.storeRegs x) := (layoutXI_and_low _ _ _).trans rfl
theorem EncodingRow.loadRegs (x : Nibble) : EncodingRow.Statement (.loadRegs x) := (layoutXI_and_low _ _ _).trans rfl

end Sys2Proof.Laws
end

