-- ==== Sys2Proof/Tests/Slice0.lean ====
section
/-!
SUPPORT. The model's own tests: expected values are those of 95_test_vectors.md, named by their row; then one witness for
every statement that has hypotheses, at the boundary values of each clause.
-/

open Sys2Proof Sys2Proof.Machine

namespace Sys2Proof.Tests

/-! ## Helpers -/

/-- The next state of an answer. -/
def nextOf : Result → Option State
  | .next t => some t
  | .fault _ => none
  | .refused _ => none

/-- One `Step` of the table word `op`, placed where `s` fetches next. -/
def run (op : Nat) (s : State) : Option State := nextOf (step (s.withFetchWord 16 op))

/-- The registers listed, set. -/
def regs (values : List (Nibble × Byte)) (s : State) : State := values.foldl (fun u p => setReg p.1 p.2 u) s

/-- The bytes listed, stored from `a` on. -/
def bytes (a : Nat) (values : List Byte) (s : State) : State := { s with mem := writeBytes s.mem a values }

/-- The cell (`cx`, `cy`) lit. -/
def lit (cx : Fin 64) (cy : Fin 32) (s : State) : State := { s with fb := Framebuffer.setCell s.fb cx cy true }

/-- The key `k` down. -/
def down (k : Fin 16) (s : State) : State := { s with keys := s.keys.set k true }

/-- `n` calls outstanding, each pushed from `a`. -/
def called (n : Fin 17) (a : Word) (s : State) : State := { s with sp := n, stack := Vector.replicate 16 a }

/-- The state with `pc` and `I` set. -/
def at' (pc i : Word) (s : State) : State := { s with pc := pc, i := i }

/-- `pc` and two registers, the part of the state most vectors speak of. -/
def view (x y : Nibble) (s : Option State) : Option (Word × Byte × Byte) :=
  s.map fun t => (t.pc, readReg t x, readReg t y)

/-- `pc` and the latch. -/
def latch (s : Option State) : Option (Word × Option (Fault × Nat)) := s.map fun t => (t.pc, t.fault)

/-! ## WellFormed: an ill-formed term for each check -/

/-- R77 (a) to (f): one word of each set of unknown opcodes. -/
theorem test_unknown_words_are_ill_formed :
    wellFormedWord 0x0123#16 = false ∧ wellFormedWord 0x5008#16 = false ∧ wellFormedWord 0x8ABF#16 = false ∧
    wellFormedWord 0x9AB1#16 = false ∧ wellFormedWord 0xE31A#16 = false ∧ wellFormedWord 0xF385#16 = false := by decide

/-- Neighbours of those words that are instructions. -/
theorem test_known_words_are_well_formed :
    wellFormedWord 0x00E0#16 = true ∧ wellFormedWord 0x5000#16 = true ∧ wellFormedWord 0x8ABE#16 = true ∧
    wellFormedWord 0x9AB0#16 = true ∧ wellFormedWord 0xE39E#16 = true ∧ wellFormedWord 0xF355#16 = true := by decide

/-- Images of 3584 and 3585 bytes (S7, EV9, EV10). -/
theorem test_image_limit :
    wellFormedImage (List.replicate 3584 0x60#8) = true ∧ wellFormedImage (List.replicate 3585 0x60#8) = false :=
  ⟨decide_eq_true (by rw [List.length_replicate]; decide), decide_eq_false (by rw [List.length_replicate]; decide)⟩

/-- Rows of R75 that share a word are refused. -/
theorem test_overlapping_rows_are_refused :
    OpcodeRow.disjoint ⟨"8xy0", 0xF00F#16, 0x8000#16⟩ ⟨"8xyE", 0xF00F#16, 0x800E#16⟩ = true ∧
    OpcodeRow.disjoint ⟨"8xy0", 0xF00F#16, 0x8000#16⟩ ⟨"8xyE", 0xF00E#16, 0x8000#16⟩ = false := by decide

/-! ## Decode: words written out bit by bit (section 2.8) -/

theorem test_decode_control :
    decodeWord 0b0000000011101110#16 = some .ret ∧ decodeWord 0b0001111111111111#16 = some (.jp 0xFFF#12) ∧
    decodeWord 0b0010101010111100#16 = some (.call 0xABC#12) ∧
    decodeWord 0b1011000100100011#16 = some (.jpV0 0x123#12) := by decide

theorem test_decode_skips :
    decodeWord 0b0011101001111111#16 = some (.seImm 0xA#4 0x7F#8) ∧
    decodeWord 0b0100111100000000#16 = some (.sneImm 0xF#4 0x00#8) ∧
    decodeWord 0b0101101010110000#16 = some (.seReg 0xA#4 0xB#4) ∧
    decodeWord 0b1001101010110000#16 = some (.sneReg 0xA#4 0xB#4) := by decide

theorem test_decode_alu :
    decodeWord 0b0110110010011001#16 = some (.ldImm 0xC#4 0x99#8) ∧
    decodeWord 0b0111000000000001#16 = some (.addImm 0x0#4 0x01#8) ∧
    decodeWord 0b1000101010110110#16 = some (.shr 0xA#4 0xB#4) ∧
    decodeWord 0b1000101010111110#16 = some (.shl 0xA#4 0xB#4) ∧
    decodeWord 0b1100001111110000#16 = some (.rnd 0x3#4 0xF0#8) := by decide

theorem test_decode_index_and_memory :
    decodeWord 0b1010000100100011#16 = some (.ldI 0x123#12) ∧ decodeWord 0b1111001100011110#16 = some (.addI 0x3#4) ∧
    decodeWord 0b1111001100101001#16 = some (.ldF 0x3#4) ∧ decodeWord 0b1111001100110011#16 = some (.ldB 0x3#4) ∧
    decodeWord 0b1111001101010101#16 = some (.storeRegs 0x3#4) ∧
    decodeWord 0b1111001101100101#16 = some (.loadRegs 0x3#4) := by decide

theorem test_decode_display :
    decodeWord 0b0000000011100000#16 = some .cls ∧
    decodeWord 0b1101000100100000#16 = some (.drw 0x1#4 0x2#4 0x0#4) := by decide

theorem test_decode_keys_and_timers :
    decodeWord 0b1110001110011110#16 = some (.skp 0x3#4) ∧ decodeWord 0b1110001110100001#16 = some (.sknp 0x3#4) ∧
    decodeWord 0b1111001100000111#16 = some (.ldVxDt 0x3#4) ∧ decodeWord 0b1111001100001010#16 = some (.ldVxK 0x3#4) ∧
    decodeWord 0b1111001100010101#16 = some (.ldDtVx 0x3#4) ∧
    decodeWord 0b1111001100011000#16 = some (.ldStVx 0x3#4) := by decide

theorem test_decode_unknown :
    [0x00E1#16, 0x00EF#16, 0x0000#16, 0x0FEE#16, 0x5ABF#16, 0x8AB9#16, 0x8ABD#16, 0xE300#16, 0xE3A0#16, 0xF300#16,
      0xF308#16, 0xF31F#16, 0xF330#16, 0xF375#16, 0xF3FF#16].all (fun op => (decodeWord op).isNone) = true := by decide

/-- Two bytes are one instruction, the rest stays; one byte is none; an unknown word is named. -/
theorem test_decode_bytes :
    decodeBytes [0x12#8, 0x34#8, 0x60#8] = .ok (.jp 0x234#12, [0x60#8]) ∧
    (decodeTableWord 16 0xD125 = some (.drw 0x1#4 0x2#4 0x5#4)) ∧ decodeTableWord 16 0x5AB1 = none := by decide

/-! ## Listings -/

/-- Program P3: its image from its listing, `DB` included. -/
theorem test_image_of_listing :
    Assembly.image [.instr (.ldI 0x210#12), .instr (.ldImm 0x0#4 0x3C#8), .instr (.ldImm 0x1#4 0x1F#8),
      .instr (.drw 0x0#4 0x1#4 0x2#4), .instr (.ldReg 0x3#4 0xF#4), .instr (.drw 0x0#4 0x1#4 0x2#4),
      .instr (.ldReg 0x4#4 0xF#4), .label "end", .toLabel .jp "end", .db [0xFF#8, 0x81#8]] =
    some [0xA2, 0x10, 0x60, 0x3C, 0x61, 0x1F, 0xD0, 0x12, 0x83, 0xF0, 0xD0, 0x12, 0x84, 0xF0, 0x12, 0x0E, 0xFF, 0x81] := by
  decide

/-- Lines of P2 and P3. -/
theorem test_print :
    Assembly.print (.drw 0x0#4 0x1#4 0x2#4) = "DRW V0, V1, 2" ∧ Assembly.print (.loadRegs 0x2#4) = "LD V2, [I]" ∧
    Assembly.print (.ldI 0x300#12) = "LD I, 0x300" ∧ Assembly.print (.ldImm 0x0#4 0xFE#8) = "LD V0, 0xFE" := by decide

/-- R80: an immediate is hexadecimal with `0x` or decimal, so the count 15 is no bare F. -/
theorem test_print_count : Assembly.print (.drw 0x0#4 0x1#4 0xF#4) = "DRW V0, V1, 15" := by decide

/-- The last address a label can stand for as `nnn`, and one above it, the end of a full image (log 28). -/
theorem test_label_range (data : List Byte) :
    (data.length = 3583 →
      Assembly.Line.bytes [.db data, .label "end"] (.toLabel .jp "end") = some [0x1F#8, 0xFF#8]) ∧
    (data.length = 3584 → Assembly.Line.bytes [.db data, .label "end"] (.toLabel .jp "end") = none) := by
  constructor <;> intro h
  · simp [Assembly.Line.bytes, Assembly.addressOf, Assembly.Line.size, Config.progBase, h]
    decide
  · simp [Assembly.Line.bytes, Assembly.addressOf, Assembly.Line.size, Config.progBase, h]

/-! ## Control transfer -/

/-- CF2: the deepest return. -/
theorem test_ret_from_depth_sixteen :
    (run 0x00EE (called 16 0x0FFE#16 State.reset)).map (fun t => (t.pc, t.sp)) = some (0x1000#16, 15) := by decide

/-- CF3. -/
theorem test_ret_underflow :
    latch (run 0x00EE State.reset) = some (0x0200#16, some (.stackUnderflow, 0x0200)) := by decide

/-- CF8: an odd target below 0x200. -/
theorem test_jp_odd_target : latch (run 0x1001 State.reset) = some (0x0001#16, none) := by decide

/-- CF10: the sixteenth call. -/
theorem test_call_sixteenth :
    (run 0x2300 (called 15 0x0000#16 State.reset)).map (fun t => (t.pc, t.sp, t.stack[15])) =
      some (0x0300#16, 16, 0x0200#16) := by decide

/-- CF11: the seventeenth. -/
theorem test_call_overflow :
    latch (run 0x2300 (called 16 0x0000#16 State.reset)) = some (0x0200#16, some (.stackOverflow, 0x0200)) := by decide

/-- CF14: the sum is not reduced. -/
theorem test_jpV0_beyond_memory :
    latch (run 0xBFFF (regs [(0x0, 0xFF)] State.reset)) = some (0x10FE#16, none) := by decide

/-- CF15: `V[3]` is not used. -/
theorem test_jpV0_ignores_register_three :
    latch (run 0xB300 (regs [(0x3, 0x44)] State.reset)) = some (0x0300#16, none) := by decide

/-- CF16: 5121 is unknown and does not skip. -/
theorem test_unknown_is_reported :
    (run 0x5121 (regs [(0x1, 0x07), (0x2, 0x07)] State.reset)).map (fun t => (t.pc, t.outputs)) =
      some (0x0202#16, [.report 0x0200#16 0x5121#16]) := by decide

/-! ## Skips -/

/-- SK1, SK2. -/
theorem test_seImm :
    latch (run 0x3142 (regs [(0x1, 0x42)] State.reset)) = some (0x0204#16, none) ∧
    latch (run 0x3142 (regs [(0x1, 0x43)] State.reset)) = some (0x0202#16, none) := by decide

/-- SK13: a skip to 0x1000. -/
theorem test_seImm_to_the_end :
    latch (run 0x3100 (at' 0x0FFC#16 0#16 State.reset)) = some (0x1000#16, none) := by decide

/-- SK4, SK5. -/
theorem test_sneImm :
    latch (run 0x4142 (regs [(0x1, 0x42)] State.reset)) = some (0x0202#16, none) ∧
    latch (run 0x4142 (regs [(0x1, 0x43)] State.reset)) = some (0x0204#16, none) := by decide

/-- SK6, SK7. -/
theorem test_seReg :
    latch (run 0x5120 (regs [(0x1, 0x09), (0x2, 0x09)] State.reset)) = some (0x0204#16, none) ∧
    latch (run 0x5120 (regs [(0x1, 0x09), (0x2, 0x08)] State.reset)) = some (0x0202#16, none) := by decide

/-- SK9, SK10. -/
theorem test_sneReg :
    latch (run 0x9120 (regs [(0x1, 0x09), (0x2, 0x08)] State.reset)) = some (0x0204#16, none) ∧
    latch (run 0x9120 (regs [(0x1, 0x09), (0x2, 0x09)] State.reset)) = some (0x0202#16, none) := by decide

/-! ## Loads and ALU -/

/-- AL1. -/
theorem test_ldImm : view 0xA 0xF (run 0x6A2A State.reset) = some (0x0202#16, 0x2A#8, 0x00#8) := by decide

/-- AL4: wraps, `VF` untouched. -/
theorem test_addImm_wraps :
    view 0x1 0xF (run 0x7101 (regs [(0x1, 0xFF), (0xF, 0x55)] State.reset)) = some (0x0202#16, 0x00#8, 0x55#8) := by
  decide

/-- AL7. -/
theorem test_ldReg :
    view 0x1 0x2 (run 0x8120 (regs [(0x2, 0x55)] State.reset)) = some (0x0202#16, 0x55#8, 0x55#8) := by decide

/-- AL9. -/
theorem test_orReg :
    view 0x1 0xF (run 0x8121 (regs [(0x1, 0xF0), (0x2, 0x0F), (0xF, 0x77)] State.reset)) =
      some (0x0202#16, 0xFF#8, 0x77#8) := by decide

/-- AL10. -/
theorem test_andReg :
    view 0x1 0xF (run 0x8122 (regs [(0x1, 0xF0), (0x2, 0x3C), (0xF, 0x77)] State.reset)) =
      some (0x0202#16, 0x30#8, 0x77#8) := by decide

/-- AL11. -/
theorem test_xorReg :
    view 0x1 0xF (run 0x8123 (regs [(0x1, 0xF0), (0x2, 0x3C), (0xF, 0x77)] State.reset)) =
      some (0x0202#16, 0xCC#8, 0x77#8) := by decide

/-- AL15: the sum 256. -/
theorem test_addReg_carries :
    view 0x1 0xF (run 0x8124 (regs [(0x1, 0xFF), (0x2, 0x01)] State.reset)) = some (0x0202#16, 0x00#8, 0x01#8) := by
  decide

/-- AL19: with `x = F` the flag 0 stands and the sum 3 is lost. -/
theorem test_addReg_into_flag :
    view 0xF 0x1 (run 0x8F14 (regs [(0xF, 0x01), (0x1, 0x02)] State.reset)) = some (0x0202#16, 0x00#8, 0x02#8) := by
  decide

/-- AL22: a borrow. -/
theorem test_subReg_borrows :
    view 0x1 0xF (run 0x8125 (regs [(0x1, 0x05), (0x2, 0x0A), (0xF, 0x01)] State.reset)) =
      some (0x0202#16, 0xFB#8, 0x00#8) := by decide

/-- AL24: equal operands do not borrow. -/
theorem test_subReg_equal :
    view 0x1 0xF (run 0x8125 (regs [(0x1, 0x07), (0x2, 0x07)] State.reset)) = some (0x0202#16, 0x00#8, 0x01#8) := by
  decide

/-- AL32: `V[y]` is ignored. -/
theorem test_shr_in_place :
    view 0x1 0xF (run 0x8126 (regs [(0x1, 0xFF)] State.reset)) = some (0x0202#16, 0x7F#8, 0x01#8) := by decide

/-- AL33: with `x = F` the result stands. -/
theorem test_shr_into_flag :
    view 0xF 0x2 (run 0x8F26 (regs [(0xF, 0x06)] State.reset)) = some (0x0202#16, 0x03#8, 0x00#8) := by decide

/-- AL36: `V[y] - V[x]`, a borrow. -/
theorem test_subnReg_borrows :
    view 0x1 0xF (run 0x8127 (regs [(0x1, 0x0A), (0x2, 0x05), (0xF, 0x01)] State.reset)) =
      some (0x0202#16, 0xFB#8, 0x00#8) := by decide

/-- AL39: with `x = F` the flag stands. -/
theorem test_subnReg_into_flag :
    view 0xF 0x1 (run 0x8F17 (regs [(0xF, 0x09), (0x1, 0x05)] State.reset)) = some (0x0202#16, 0x00#8, 0x05#8) := by
  decide

/-- AL40. -/
theorem test_shl :
    view 0x1 0xF (run 0x812E (regs [(0x1, 0x81)] State.reset)) = some (0x0202#16, 0x02#8, 0x01#8) := by decide

/-- AL43: with `x = y = F` the result stands. -/
theorem test_shl_into_flag :
    view 0xF 0x0 (run 0x8FFE (regs [(0xF, 0x81)] State.reset)) = some (0x0202#16, 0x02#8, 0x00#8) := by decide

/-- AL45, with the byte the vector supplies. -/
theorem test_rnd_masks :
    view 0x1 0xF (nextOf (drawRandom 0xA7#8 0x1#4 0x0F#8 State.reset)) = some (0x0202#16, 0x07#8, 0x00#8) := by decide

/-- The draw is the machine's own free byte, and the next draw is another. -/
theorem test_rnd_draws :
    execRnd 0x1#4 0x0F#8 State.reset = drawRandom (Config.randomByte 0) 0x1#4 0x0F#8 State.reset ∧
    (run 0xC10F State.reset).map (fun t => t.draws) = some 1 := ⟨rfl, by decide⟩

/-! ## Index and memory -/

/-- IX2. -/
theorem test_ldI :
    (run 0xAFFF (at' 0x0200#16 0x1234#16 State.reset)).map (fun t => t.i) = some 0x0FFF#16 := by decide

/-- IX5: 0xFFF does not exceed 0xFFF. -/
theorem test_addI_at_the_limit :
    (run 0xF11E (regs [(0xF, 0x01)] (at' 0x0200#16 0x0FFF#16 State.reset))).map (fun t => (t.i, readReg t 0xF)) =
      some (0x0FFF#16, 0x00#8) := by decide

/-- IX7: the index wraps at 16 bits, the flag comes from the unreduced sum. -/
theorem test_addI_wraps :
    (run 0xF11E (regs [(0x1, 0x01)] (at' 0x0200#16 0xFFFF#16 State.reset))).map (fun t => (t.i, readReg t 0xF)) =
      some (0x0000#16, 0x01#8) := by decide

/-- IX11. -/
theorem test_ldF_whole_byte :
    (run 0xF129 (regs [(0x1, 0xFF)] State.reset)).map (fun t => t.i) = some 0x04FB#16 := by decide

/-- IX12. -/
theorem test_ldB_digits :
    (run 0xF133 (regs [(0x1, 0x9C)] (at' 0x0200#16 0x0300#16 State.reset))).map (fun t => readBytes t.mem 0x300 3) =
      some [0x01#8, 0x05#8, 0x06#8] := by decide

/-- IX15: nothing is written. -/
theorem test_ldB_beyond_memory :
    (run 0xF133 (regs [(0x1, 0x07)] (at' 0x0200#16 0x0FFE#16 State.reset))).map (fun t =>
      (t.fault, readBytes t.mem 0xFFE 2)) = some (some (.memRange, 0x1000), [0x00#8, 0x00#8]) := by decide

/-- IX17. -/
theorem test_storeRegs :
    (run 0xF255 (regs [(0x0, 0x11), (0x1, 0x22), (0x2, 0x33)] (at' 0x0200#16 0x0400#16 State.reset))).map (fun t =>
      (t.i, readBytes t.mem 0x400 4)) = some (0x0400#16, [0x11#8, 0x22#8, 0x33#8, 0x00#8]) := by decide

/-- IX21: sixteen registers do not fit at 0xFF1. -/
theorem test_storeRegs_beyond_memory :
    latch (run 0xFF55 (regs [(0x0, 0x01)] (at' 0x0200#16 0x0FF1#16 State.reset))) =
      some (0x0200#16, some (.memRange, 0x1000)) := by decide

/-- IX22: `V[2]` and `I` are kept. -/
theorem test_loadRegs :
    (run 0xF165 (regs [(0x2, 0x77)] (bytes 0x400 [0xAA, 0xBB, 0xCC] (at' 0x0200#16 0x0400#16 State.reset)))).map (fun t =>
      (t.i, readReg t 0x0, readReg t 0x1, readReg t 0x2)) = some (0x0400#16, 0xAA#8, 0xBB#8, 0x77#8) := by decide

/-- IX23: glyph 0 of the default font. -/
theorem test_loadRegs_font :
    (run 0xF465 State.reset).map (fun t => (readReg t 0x0, readReg t 0x1, readReg t 0x4)) =
      some (0xF0#8, 0x90#8, 0xF0#8) := by decide

/-! ## Display -/

/-- DR1: all off, nothing presented. -/
theorem test_cls :
    (run 0x00E0 (lit 0 0 (lit 63 31 State.reset))).map (fun t =>
      (Framebuffer.cell t.fb 0 0, Framebuffer.cell t.fb 63 31, t.outputs)) = some (false, false, []) := by decide

/-- DR5: one cell on, one off, a collision. -/
theorem test_drw_collides :
    (run 0xD011 (lit 1 0 (bytes 0x300 [0xC0] (at' 0x0200#16 0x0300#16 State.reset)))).map (fun t =>
      (Framebuffer.cell t.fb 0 0, Framebuffer.cell t.fb 1 0, readReg t 0xF, t.outputs)) =
      some (true, false, 0x01#8, [.present]) := by decide

/-- DR9: (255, 255) is (63, 31), and bit 0 lands at column 6. -/
theorem test_drw_wraps :
    (run 0xD011 (regs [(0x0, 0xFF), (0x1, 0xFF)] (bytes 0x300 [0x81] (at' 0x0200#16 0x0300#16 State.reset)))).map (fun t =>
      (Framebuffer.cell t.fb 63 31, Framebuffer.cell t.fb 0 31, Framebuffer.cell t.fb 6 31, readReg t 0xF)) =
      some (true, false, true, 0x00#8) := by decide

/-! ## Keys and timers -/

/-- KT1, KT4: key 5; 0x10 names no key. -/
theorem test_skp :
    latch (run 0xE19E (regs [(0x1, 0x05)] (down 5 State.reset))) = some (0x0204#16, none) ∧
    latch (run 0xE19E (regs [(0x1, 0x10)] (down 0 State.reset))) = some (0x0200#16, some (.keyRange, 0x10)) := by decide

/-- KT5, KT7. -/
theorem test_sknp :
    latch (run 0xE1A1 (regs [(0x1, 0x05)] (down 5 State.reset))) = some (0x0202#16, none) ∧
    latch (run 0xE1A1 (regs [(0x1, 0xFF)] State.reset)) = some (0x0200#16, some (.keyRange, 0xFF)) := by decide

/-- KT9. -/
theorem test_ldVxDt :
    view 0xF 0x0 (run 0xFF07 (regs [(0xF, 0x01)] { State.reset with dt := 0x02#8 })) =
      some (0x0202#16, 0x02#8, 0x00#8) := by decide

/-- KT10. -/
theorem test_ldDtVx :
    (run 0xF115 (regs [(0x1, 0x3C)] State.reset)).map (fun t => (t.dt, t.st)) = some (0x3C#8, 0x00#8) := by decide

/-- KT12. -/
theorem test_ldStVx :
    (run 0xF118 (regs [(0x1, 0x02)] State.reset)).map (fun t => (t.dt, t.st, tone t)) =
      some (0x00#8, 0x02#8, true) := by decide

/-- KT13: the wait. -/
theorem test_ldVxK_waits : view 0x3 0x0 (run 0xF30A State.reset) = some (0x0200#16, 0x00#8, 0x00#8) := by decide

/-- KT14: the lowest key, which stays down. -/
theorem test_ldVxK_lowest :
    (run 0xF30A (down 7 (down 9 State.reset))).map (fun t => (t.pc, readReg t 0x3, t.keys[7])) =
      some (0x0202#16, 0x07#8, true) := by decide

/-! ## Events, and the fetch -/

/-- EV1, EV2, EV4. -/
theorem test_tick :
    (timerTick { State.reset with dt := 0x05#8 }).dt = 0x04#8 ∧ (timerTick { State.reset with dt := 0x05#8 }).st = 0x00#8 ∧
    tone (timerTick { State.reset with st := 0x01#8 }) = false ∧
    (timerTick { State.reset with st := 0xFF#8 }).st = 0xFE#8 := by decide

/-- EV17. -/
theorem test_set_keys :
    (nextOf (applyEvent (.setKeys (down 1 (down 2 State.reset)).keys) (down 9 State.reset))).map (fun t => t.keys) =
      some #v[false, true, true, false, false, false, false, false, false, false, false, false, false, false, false, false]
      := by decide

/-- EV8: memory and keys survive a reset, the rest does not. -/
theorem test_reset_keeps_memory :
    (nextOf (applyEvent .reset (regs [(0x3, 0x12)] (bytes 0x300 [0xAA] (down 3 (at' 0x0456#16 0x0345#16 State.reset)))))).map
      (fun t => (t.pc, readReg t 0x3, readByte t.mem 0x300, t.keys[3])) = some (0x0200#16, 0x00#8, 0xAA#8, true) ∧
    latch (nextOf (applyEvent .reset { State.reset with fault := some (.keyRange, 0x10), pc := 0x0456#16 })) =
      some (0x0200#16, none) := by decide

/-- EV12: big-endian, 0x1234 and not 0x3412. -/
theorem test_fetch_is_big_endian :
    latch (nextOf (step (bytes 0x200 [0x12, 0x34] State.reset))) = some (0x0234#16, none) := by decide

/-- EV13, EV7. -/
theorem test_fetch_range_then_nothing :
    latch (nextOf (step (at' 0x0FFF#16 0#16 State.reset))) = some (0x0FFF#16, some (.fetchRange, 0xFFF)) ∧
    latch (nextOf (step { State.reset with fault := some (.stackUnderflow, 0x200) })) =
      some (0x0200#16, some (.stackUnderflow, 0x200)) := by decide

/-- EV14: the last instruction slot executes. -/
theorem test_last_slot_executes :
    view 0xA 0x0 (nextOf (step (bytes 0xFFE [0x6A, 0x2A] (at' 0x0FFE#16 0#16 State.reset)))) =
      some (0x1000#16, 0x2A#8, 0x00#8) := by decide

/-- EV15, EV16: an odd `pc`; the font's first word is unknown. -/
theorem test_odd_and_font_fetch :
    view 0x0 0x1 (nextOf (step (bytes 0x201 [0x60, 0x12] (at' 0x0201#16 0#16 State.reset)))) =
      some (0x0203#16, 0x12#8, 0x00#8) ∧
    (nextOf (step (at' 0x0000#16 0#16 State.reset))).map (fun t => t.outputs) =
      some [.report 0x0000#16 0xF090#16] := by decide

/-- The lifecycle: a load before power-on is out of order. -/
theorem test_lifecycle :
    runEvents .off [.load []] State.reset = .refused .hostOutOfOrder ∧
    runEvents .launched [.load []] State.reset = .refused .hostOutOfOrder ∧
    runEvents .poweredOn [.timerTick, .step] State.reset = .refused .hostOutOfOrder ∧
    runEvents .loadFailed [.timerTick, .load [], .step] State.reset = .refused .hostOutOfOrder ∧
    (nextOf (runEvents .poweredOn [.timerTick, .reset, .load [], .step] State.reset)).isSome = true :=
  ⟨rfl, rfl, rfl, rfl, by decide⟩

/-- The five fault codes of R170. -/
theorem test_fault_codes :
    [Fault.fetchRange, .memRange, .stackOverflow, .stackUnderflow, .keyRange].map Fault.code = [1, 2, 3, 4, 5] := by decide

/-! ## Witnesses: states and operands that meet the hypotheses of each statement -/

/-- Two cells apart, so two framebuffers apart. -/
theorem fb_ne {a b : Framebuffer} (cx : Fin 64) (cy : Fin 32) (h : Framebuffer.cell a cx cy ≠ Framebuffer.cell b cx cy) :
    a ≠ b := fun e => h (e ▸ rfl)

/-- The program `D0 12` under `pc`, the sprite 0x80 at 0xFFF. -/
def drawing : State := bytes 0xFFF [0x80] (at' 0x0200#16 0x0FFF#16 State.reset)

/-- A state whose invariant is met at its bounds: `pc` at 0x10FE, a stack slot at 0xFFE, the last byte listed. -/
def edge : State := bytes 0xFFF [0x80] (at' 0x10FE#16 0#16 (called 16 0x0FFE#16 State.reset))

/-- `drawing` after its Dxyn. -/
def drawn : State := (nextOf (exec (.drw 0x0#4 0x1#4 0x1#4) drawing)).getD State.reset

theorem edge_inv : edge.Inv := ⟨by decide, by decide, by decide⟩

/-- The instruction at `pc`, from the word there. -/
theorem instrAt {s : State} (op : Word) {i : Instr} (range : s.pc.toNat ≤ 0xFFE)
    (word : op.toNat = 256 * (readByte s.mem s.pc.toNat).toNat + (readByte s.mem (s.pc.toNat + 1)).toNat)
    (decodes : decodeWord op = some i) : InstrAtPc s i := ⟨op, ⟨range, word⟩, decodes⟩

theorem witness_EncodeInvertsDecode : decodeWord 0xD125#16 = some (.drw 0x1#4 0x2#4 0x5#4) := by decide

theorem witness_DecoderAgreesWithOpcodeMap :
    decodeWord 0x8ABE#16 = some (.shl 0xA#4 0xB#4) ∧ (⟨"8xyE", 0xF00F#16, 0x800E#16⟩ : OpcodeRow) ∈ opcodeMap ∧
    OpcodeRow.covers ⟨"8xyE", 0xF00F#16, 0x800E#16⟩ 0x8ABE#16 = true := by decide

theorem witness_StepRunsDecodedInstruction :
    (bytes 0xFFE [0x6A, 0x2A] (at' 0x0FFE#16 0#16 State.reset)).fault = none ∧
    WordAtPc (bytes 0xFFE [0x6A, 0x2A] (at' 0x0FFE#16 0#16 State.reset)) 0x6A2A#16 ∧
    decodeWord 0x6A2A#16 = some (.ldImm 0xA#4 0x2A#8) := ⟨rfl, ⟨by decide, by decide⟩, by decide⟩

/-- Latched; `pc` one above the range; `pc` at its last value. -/
theorem witness_StepChecksLatchThenFetchRange :
    ({ State.reset with fault := some (.keyRange, 0x10) } : State).fault ≠ none ∧
    ((at' 0x0FFF#16 0#16 State.reset).fault = none ∧ (at' 0x0FFF#16 0#16 State.reset).pc.toNat > 0xFFE) ∧
    ((at' 0x0FFE#16 0#16 State.reset).fault = none ∧ (at' 0x0FFE#16 0#16 State.reset).pc.toNat ≤ 0xFFE) := by decide

theorem witness_UnknownWordIsReportedAndSkipped :
    (at' 0x0FFE#16 0#16 State.reset).fault = none ∧ WordAtPc (at' 0x0FFE#16 0#16 State.reset) 0x0000#16 ∧
    wellFormedWord 0x0000#16 = false := ⟨rfl, ⟨by decide, by decide⟩, by decide⟩

theorem witness_PlacedTableWordRunsNext : 65535 < 65536 ∧ Memory.wf (at' 0x0FFF#16 0#16 drawing).mem = true := by decide

/-- Each fault of the table, from a state with no fault latched. -/
theorem witness_FaultsArePreciseAndComplete :
    (∃ s : State, s.fault = none ∧ FaultCondition s .fetchRange 0xFFF) ∧
    (∃ s : State, s.fault = none ∧ FaultCondition s .memRange 0x1000) ∧
    (∃ s : State, s.fault = none ∧ FaultCondition s .stackOverflow 0x200) ∧
    (∃ s : State, s.fault = none ∧ FaultCondition s .stackUnderflow 0x200) ∧
    (∃ s : State, s.fault = none ∧ FaultCondition s .keyRange 16) :=
  ⟨⟨at' 0x0FFF#16 0#16 State.reset, rfl, by decide, by decide⟩,
   ⟨bytes 0x200 [0xF1, 0x33] (at' 0x0200#16 0x0FFE#16 State.reset), rfl, by decide,
     .inl ⟨0x1#4, instrAt 0xF133#16 (by decide) (by decide) (by decide), by decide⟩⟩,
   ⟨bytes 0x200 [0x23, 0x00] (called 16 0#16 State.reset), rfl,
     ⟨0x300#12, instrAt 0x2300#16 (by decide) (by decide) (by decide)⟩, by decide, by decide⟩,
   ⟨bytes 0x200 [0x00, 0xEE] State.reset, rfl, instrAt 0x00EE#16 (by decide) (by decide) (by decide), by decide, by decide⟩,
   ⟨bytes 0x200 [0xE1, 0x9E] (regs [(0x1, 0x10)] State.reset), rfl, 0x1#4,
     .inl (instrAt 0xE19E#16 (by decide) (by decide) (by decide)), by decide, by decide⟩⟩

/-- Steps that latch a fault: the premise of the first clause. -/
theorem witness_FaultsArePrecise :
    ∃ t, step (at' 0x0FFF#16 0#16 State.reset) = .next t ∧ t.fault = some (.fetchRange, 0xFFF) := ⟨_, rfl, rfl⟩

/-- Each part is written by some instruction. -/
theorem witness_StateIsWrittenOnlyByItsWriters :
    (∃ t, exec .cls (lit 0 0 State.reset) = .next t ∧ t.fb ≠ (lit 0 0 State.reset).fb) ∧
    (∃ t, exec (.ldI 0xFFF#12) State.reset = .next t ∧ t.i ≠ State.reset.i) ∧
    (∃ t, exec (.ldDtVx 0x1#4) (regs [(0x1, 0xFF)] State.reset) = .next t ∧ t.dt ≠ State.reset.dt) ∧
    (∃ t, exec (.ldStVx 0x1#4) (regs [(0x1, 0xFF)] State.reset) = .next t ∧ t.st ≠ State.reset.st) ∧
    (∃ t, exec (.call 0x300#12) State.reset = .next t ∧ t.sp ≠ State.reset.sp ∧ t.stack ≠ State.reset.stack) ∧
    (∃ t, exec (.storeRegs 0x0#4) (regs [(0x0, 0x01)] (at' 0x0200#16 0x0FFF#16 State.reset)) = .next t ∧
      t.mem ≠ State.reset.mem) ∧
    (∃ t, exec (.ldImm 0xF#4 0x01#8) State.reset = .next t ∧ readReg t 0xF#4 ≠ readReg State.reset 0xF#4) ∧
    (∃ t, exec .ret State.reset = .next t ∧ t.fault ≠ State.reset.fault) ∧
    (∃ t, exec (.rnd 0x1#4 0x0F#8) State.reset = .next t ∧ t.draws ≠ State.reset.draws) ∧
    (∃ t, exec (.drw 0x0#4 0x0#4 0x0#4) State.reset = .next t ∧ t.outputs ≠ State.reset.outputs) :=
  ⟨⟨_, rfl, fb_ne 0 0 (by decide)⟩, ⟨_, rfl, by decide⟩, ⟨_, rfl, by decide⟩, ⟨_, rfl, by decide⟩,
   ⟨_, rfl, by decide, by decide⟩, ⟨_, rfl, by decide⟩, ⟨_, rfl, by decide⟩, ⟨_, rfl, by decide⟩, ⟨_, rfl, by decide⟩,
   ⟨_, rfl, by decide⟩⟩

theorem witness_FlagIsWrittenOnlyByItsWriters :
    ∃ t, exec (.addReg 0x1#4 0x2#4) (regs [(0x1, 0xFF), (0x2, 0x01)] State.reset) = .next t ∧
      readReg t 0xF#4 ≠ readReg (regs [(0x1, 0xFF), (0x2, 0x01)] State.reset) 0xF#4 := ⟨_, rfl, by decide⟩

theorem witness_StepKeepsInvariant : edge.Inv ∧ ∃ t, step edge = .next t := ⟨edge_inv, _, rfl⟩

theorem witness_HostEventsKeepInvariant : edge.Inv ∧ ∃ t, applyEvent (.load [0x12#8, 0x00#8]) edge = .next t :=
  ⟨edge_inv, _, rfl⟩

/-- A step that is an Fx18, and one that is not. -/
theorem witness_SoundTimerIsUnobservable :
    (∃ s t, step s = .next t ∧ (∃ x, InstrAtPc s (.ldStVx x)) ∧ s.fault = none) ∧
    ∃ s t : State, step s = .next t ∧ ¬((∃ x, InstrAtPc s (.ldStVx x)) ∧ s.fault = none) :=
  ⟨⟨bytes 0x200 [0xF1, 0x18] State.reset, _, rfl,
     ⟨0x1#4, instrAt 0xF118#16 (by decide) (by decide) (by decide)⟩, rfl⟩,
   { State.reset with fault := some (.keyRange, 0x10) }, _, rfl, fun h => by simp at h⟩

/-- One call outstanding, the fifteen slots above it different. -/
theorem witness_StaleStackSlotsAreUnobservable :
    ∃ s t u : State, u = { s with stack := u.stack } ∧ u.stack ≠ s.stack ∧
      (∀ k : Fin 16, k.val < s.sp.val → u.stack[k] = s.stack[k]) ∧ step s = .next t :=
  ⟨called 1 0x0204#16 State.reset, _,
   { called 1 0x0204#16 State.reset with stack := (Vector.replicate 16 0xFFFF#16).set 0 0x0204#16 },
   rfl, by decide, by decide, rfl⟩

/-- One call outstanding and sixteen. -/
theorem witness_ReturnGoesPastTheStoredAddress :
    (0 < (called 1 0x0204#16 State.reset).sp.val ∧ (0 : Fin 16).val + 1 = (called 1 0x0204#16 State.reset).sp.val) ∧
    0 < (called 16 0x0FFE#16 State.reset).sp.val ∧
      (15 : Fin 16).val + 1 = (called 16 0x0FFE#16 State.reset).sp.val := by decide

/-- A jump to itself, and one to 0xFFF. -/
theorem witness_JumpGoesToTarget :
    (0x200#12).toNat = State.reset.pc.toNat ∧ (0xFFF#12 = 0xFFF#12 ∧ State.reset.fault = none) := by decide

theorem witness_CallPushesItsOwnAddress :
    State.reset.sp.val < 16 ∧ (called 15 0#16 State.reset).sp.val < 16 := by decide

theorem witness_StackLimitsFault : (called 16 0#16 State.reset).sp.val = 16 ∧ State.reset.sp.val = 0 := by decide

/-- Sixteen calls from an empty stack, and one onto fifteen. -/
theorem witness_NestedCallsReturnPastTheFirst :
    (List.replicate 16 0x204#12 ≠ [] ∧ State.reset.sp.val + (List.replicate 16 0x204#12).length ≤ 16) ∧
    [0x000#12] ≠ [] ∧ (called 15 0#16 State.reset).sp.val + [0x000#12].length ≤ 16 := by decide

theorem witness_ImmediateSkips :
    readReg State.reset 0x0#4 = 0x00#8 ∧ readReg State.reset 0x0#4 ≠ 0xFF#8 := by decide

theorem witness_RegisterSkips : (0xF#4 : Nibble) = 0xF#4 ∧
    readReg (regs [(0x0, 0x01)] State.reset) 0x0#4 ≠ readReg (regs [(0x0, 0x01)] State.reset) 0xF#4 := by decide

theorem witness_FlagOperandsOtherThanF : (0xE#4 : Nibble) ≠ 0xF#4 := by decide

/-- A bit the mask clears and one it keeps. -/
theorem witness_RandomByteIsMasked : (0x0F#8).getLsbD 7 = false ∧ (0x0F#8).getLsbD 0 = true := by decide

/-- The last base that holds three digits, and sixteen registers. -/
theorem witness_StoreDecimalDigits :
    Memory.wf (at' 0x0200#16 0x0FFD#16 drawing).mem = true ∧ baseAddress (at' 0x0200#16 0x0FFD#16 drawing) + 2 ≤ 0xFFF := by
  decide

theorem witness_StoreRegistersAtIndex :
    Memory.wf (at' 0x0200#16 0x0FF0#16 drawing).mem = true ∧
    baseAddress (at' 0x0200#16 0x0FF0#16 drawing) + (0xF#4).toNat ≤ 0xFFF ∧ (0xF#4).toNat ≤ (0xF#4).toNat := by decide

theorem witness_LoadRegistersFromIndex :
    baseAddress drawing + (0x0#4).toNat ≤ 0xFFF ∧ (0x0#4).toNat ≤ (0x0#4).toNat ∧ (0x0#4).toNat < (0xF#4).toNat := by decide

theorem witness_StoreThenLoadRestoresRegisters :
    ∃ s t u : State, Memory.wf s.mem = true ∧ baseAddress s + (0xF#4).toNat ≤ 0xFFF ∧
      exec (.storeRegs 0xF#4) s = .next t ∧ u.mem = t.mem ∧ u.i = t.i ∧ readReg u 0xF#4 ≠ readReg s 0xF#4 :=
  ⟨at' 0x0200#16 0x0FF0#16 (regs [(0x0, 0x11), (0xF, 0x22)] State.reset), _,
   { State.reset with i := 0x0FF0#16, mem := writeBytes [] 0xFF0 ([0x11#8] ++ List.replicate 14 0x00#8 ++ [0x22#8]) },
   by decide, by decide, rfl, by decide, rfl, by decide⟩

/-- One byte too many, for each of the three forms; and a draw of one row at 0x1000. -/
theorem witness_TransfersBeyondMemoryFault :
    (at' 0x0200#16 0x0FFE#16 State.reset).i.toNat + 2 > 0xFFF ∧
    (at' 0x0200#16 0x0FF1#16 State.reset).i.toNat + (0xF#4).toNat > 0xFFF ∧
    (0x1#4 : Nibble) ≠ 0x0#4 ∧ (at' 0x0200#16 0x1000#16 State.reset).i.toNat + (0x1#4).toNat > 0x1000 := by decide

/-- An Fx33 over the last word of memory, and an Fx55 of one register over the low byte of the next word. -/
theorem witness_StoreIsSeenByNextFetch :
    (∃ (s : State) (bytes : List Byte), bytes = decimalDigits (readReg s 0x1#4) ∧ Memory.wf s.mem = true ∧
      s.fault = none ∧ WordAtPc s (encode (.ldB 0x1#4)) ∧ s.pc.toNat + 4 = 4096 ∧
      baseAddress s + bytes.length = 4096) ∧
    ∃ (s : State) (bytes : List Byte), bytes = firstRegisters 0x0#4 s ∧ Memory.wf s.mem = true ∧
      s.fault = none ∧ WordAtPc s (encode (.storeRegs 0x0#4)) ∧ s.pc.toNat + 4 = 4096 ∧
      baseAddress s + bytes.length = 4096 :=
  ⟨⟨bytes 0xFFC [0xF1, 0x33] (at' 0x0FFC#16 0x0FFD#16 (regs [(0x1, 0xFF)] State.reset)), _, rfl,
     by decide, rfl, ⟨by decide, by decide⟩, by decide, by decide⟩,
   bytes 0xFFC [0xF0, 0x55] (at' 0x0FFC#16 0x0FFF#16 (regs [(0x0, 0xEE)] State.reset)), _, rfl,
     by decide, rfl, ⟨by decide, by decide⟩, by decide, by decide⟩

/-- No row, whatever `I`; the last byte of memory; a cell under the sprite and one not; a lit one, and none. -/
theorem witness_DrawTogglesSpriteCells :
    (0x0#4 : Nibble) = 0x0#4 ∧ baseAddress drawing + (0x1#4).toNat ≤ 0x1000 ∧
    SpriteCovers drawing.mem (baseAddress drawing) 0 0 1 0 0 ∧
    (¬SpriteCovers drawing.mem (baseAddress drawing) 0 0 1 1 0) ∧
    Framebuffer.cell (lit 0 0 drawing).fb 0 0 = true ∧ Framebuffer.cell drawing.fb 0 0 = false :=
  ⟨rfl, by decide, ⟨0, by decide, 0, by decide, by decide, by decide, by decide⟩, by unfold SpriteCovers; decide,
   by decide, by decide⟩

theorem witness_DrawingTwiceRestoresTheScreen :
    ∃ s t u w : State, baseAddress s + (0x1#4).toNat ≤ 0x1000 ∧ exec (.drw 0x0#4 0x1#4 0x1#4) s = .next t ∧
      u = { t with v := u.v } ∧ readReg u 0x0#4 = readReg s 0x0#4 ∧ readReg u 0x1#4 = readReg s 0x1#4 ∧
      exec (.drw 0x0#4 0x1#4 0x1#4) u = .next w :=
  ⟨drawing, drawn, drawn, _, by decide, rfl, rfl, by decide, by decide, rfl⟩

/-- Key 15 named, and the value 16. -/
theorem witness_KeySkips :
    (readReg (regs [(0x1, 0x0F)] State.reset) 0x1#4).toNat = (15 : Fin 16).val ∧
    (readReg (regs [(0x1, 0x10)] State.reset) 0x1#4).toNat > 15 := by decide

/-- No key down; key 15 alone; key 0 with others. -/
theorem witness_KeyWaitTakesLowestKey :
    (∀ k : Fin 16, State.reset.keys[k] = false) ∧
    ((down 15 State.reset).keys[(15 : Fin 16)] = true ∧
      ∀ j : Fin 16, j < 15 → (down 15 State.reset).keys[j] = false) ∧
    (down 0 (down 9 State.reset)).keys[(0 : Fin 16)] = true ∧
      ∀ j : Fin 16, j < 0 → (down 0 (down 9 State.reset)).keys[j] = false := by decide

/-- The longest image, and one byte more. -/
theorem witness_LoadPlacesTheImageOrRefuses :
    Memory.wf State.reset.mem = true ∧ (List.replicate 3584 0x60#8).length ≤ 3584 ∧
    (List.replicate 3585 0x60#8).length > 3584 :=
  ⟨rfl, by rw [List.length_replicate], by rw [List.length_replicate]; decide⟩

theorem witness_FirstStepRunsTheImage :
    (List.replicate 3582 0x60#8).length + 2 ≤ 3584 ∧ ([] : List Byte).length + 2 ≤ 3584 :=
  ⟨by rw [List.length_replicate], by decide⟩

theorem witness_OnlyResetLeavesAFault :
    ∃ s t : State, s.fault ≠ none ∧ applyEvent .reset s = .next t ∧ t.fault = none :=
  ⟨{ State.reset with fault := some (.memRange, 0x1000) }, _, by decide, rfl, rfl⟩

/-- A step, a tick and a reset, then one more step. -/
theorem witness_SafeRunHadNoEarlierFault :
    ∃ t, SafeRun ([.step, .timerTick, .reset] ++ [.step]) State.reset t ∧ Event.reset ∉ [Event.step] :=
  ⟨_, ⟨rfl, rfl⟩, by decide⟩

/-- The shortest image that fails, then a tick, a reset and a change of keys; a Step and a second Load. -/
theorem witness_FailedLoadBarsEveryStep :
    (List.replicate 3585 0x60#8).length > 3584 ∧
    (∀ e ∈ [Event.timerTick, .reset, .setKeys (down 3 State.reset).keys],
      e = .timerTick ∨ e = .reset ∨ ∃ k, e = .setKeys k) ∧
    (∃ barred : Event, barred = .step) ∧ ∃ barred other, barred = Event.load other :=
  ⟨by rw [List.length_replicate]; decide, by simp, ⟨_, rfl⟩, _, [0x12#8, 0x00#8], rfl⟩

end Sys2Proof.Tests
end

section
/-!
PROOF. The skips that compare a register with an immediate, 3xnn and 4xnn (41_skips.md).
-/

namespace Sys2Proof.Machine

theorem decodeWord_layoutXI_three (x : Nibble) (nn : Byte) :
    decodeWord (layoutXI 0x3#4 x nn) = some (.seImm x nn) := by
  simp [decodeWord]

theorem decodeWord_layoutXI_four (x : Nibble) (nn : Byte) :
    decodeWord (layoutXI 0x4#4 x nn) = some (.sneImm x nn) := by
  simp [decodeWord]

/-- The frame of every skip: it writes `pc` alone, taken or not (R24). -/
theorem onlyChanges_skipIf (taken : Bool) (s : State) : OnlyChanges [] s (skipIf taken s) := by
  apply onlyChanges_of_fields <;> simp

/-- Settles O24: each word has layout `XI`, and each instruction is a `skipIf` on the comparison of `V[x]` with `nn`. -/
theorem immediateSkips : Obligations.ImmediateSkips := by
  intro s x nn
  refine ⟨⟨decodeWord_layoutXI_three x nn, skipIf (readReg s x == nn) s, rfl, onlyChanges_skipIf _ s, ?_, ?_⟩,
    ⟨decodeWord_layoutXI_four x nn, skipIf (readReg s x != nn) s, rfl, onlyChanges_skipIf _ s, ?_, ?_⟩⟩
  · intro equal; simp [equal]
  · intro differ; simp [differ]
  · intro differ; simp [differ]
  · intro equal; simp [equal]

end Sys2Proof.Machine
end

section
/-!
PROOF. The loads of a register, 6xnn and 8xy0 (42_load_alu.md).
-/

namespace Sys2Proof.Machine

theorem decodeWord_layoutXI_six (x : Nibble) (nn : Byte) :
    decodeWord (layoutXI 0x6#4 x nn) = some (.ldImm x nn) := by
  simp [decodeWord]

theorem decodeWord_layoutXY_eight_zero (x y : Nibble) :
    decodeWord (layoutXY 0x8#4 x y 0x0#4) = some (.ldReg x y) := by
  simp [decodeWord, decodeAlu]

/-- A write of `V[x]` keeps every other register (R20). -/
theorem registersKeptBut_advance_setReg (x : Nibble) (b : Byte) (s : State) :
    RegistersKeptBut [x] s (advance (setReg x b s)) := by
  intro r hr
  rw [readReg_advance, readReg_setReg_other (List.ne_of_not_mem_cons hr)]

/-- The frame of every flagless register write: nothing but `pc` and the registers differs (R20, R24). -/
theorem onlyChanges_advance_setReg (x : Nibble) (b : Byte) (s : State) :
    OnlyChanges [.registers] s (advance (setReg x b s)) := by
  apply onlyChanges_of_fields <;> simp

/-- What `writeResult` does: `V[x]` takes the byte, every other register and part is kept, and `pc` advances by 2. -/
theorem writeResult_spec (x : Nibble) (b : Byte) (s : State) :
    ∃ t, writeResult x b s = .next t ∧ readReg t x = b ∧ RegistersKeptBut [x] s t ∧
      OnlyChanges [.registers] s t ∧ t.pc = s.pc + 2#16 :=
  ⟨advance (setReg x b s), rfl, readReg_setReg_same x b s, registersKeptBut_advance_setReg x b s,
    onlyChanges_advance_setReg x b s, rfl⟩

/-- Settles O26: each word has its layout, and each instruction is a `writeResult` of `nn`, or of the old `V[y]`. -/
theorem loadsIntoRegister : Obligations.LoadsIntoRegister := by
  intro s x y nn
  exact ⟨⟨decodeWord_layoutXI_six x nn, writeResult_spec x nn s⟩,
    ⟨decodeWord_layoutXY_eight_zero x y, writeResult_spec x (readReg s y) s⟩⟩

end Sys2Proof.Machine
end

section
/-!
PROOF. The load of the index register, Annn (43_index_memory.md).
-/

namespace Sys2Proof.Machine

theorem decodeWord_layoutA_ten (nnn : Imm12) : decodeWord (layoutA 0xA#4 nnn) = some (.ldI nnn) := by
  simp [decodeWord]

/-- Zero extension keeps the number (R73). -/
theorem toNat_extend (nnn : Imm12) : (extend nnn).toNat = nnn.toNat :=
  BitVec.toNat_setWidth_of_le (by decide)

/-- The frame of every write of `I` alone: nothing but `pc` and the index register differs (R24). -/
theorem onlyChanges_advance_setIndex (w : Word) (s : State) : OnlyChanges [.index] s (advance (setIndex w s)) := by
  apply onlyChanges_of_fields <;> simp

/-- Settles O33: the word has layout `A`, and the instruction is one write of `I`, which takes the extended `nnn`. -/
theorem loadIndexImmediate : Obligations.LoadIndexImmediate := by
  intro s nnn
  exact ⟨decodeWord_layoutA_ten nnn, advance (setIndex (extend nnn) s), exec_ldI nnn s, toNat_extend nnn,
    onlyChanges_advance_setIndex (extend nnn) s, rfl⟩

end Sys2Proof.Machine
end

section
/-!
PROOF. The decoder and the encoder invert each other (30_encoding.md sections 2 to 4): each family of words decodes by
its fields, and each word is the layout of its fields.
-/

namespace Sys2Proof

/-! ## From an instruction to its word and back -/

theorem decodeWord_layoutXY_eight (x y n : Nibble) : decodeWord (layoutXY 0x8#4 x y n) = decodeAlu x y n := by
  simp [decodeWord]

theorem decodeWord_layoutXI_fourteen (x : Nibble) (nn : Byte) :
    decodeWord (layoutXI 0xE#4 x nn) = decodeKeys x nn := by
  simp [decodeWord]

theorem decodeWord_layoutXI_fifteen (x : Nibble) (nn : Byte) :
    decodeWord (layoutXI 0xF#4 x nn) = decodeMisc x nn := by
  simp [decodeWord]

theorem decodeWord_encode (i : Instr) : decodeWord (encode i) = some i := by
  cases i with
  | cls | ret => decide
  | jp | call | ldI | jpV0 => simp [encode, decodeWord]
  | seImm | sneImm | ldImm | addImm | rnd => simp [encode, decodeWord]
  | seReg | sneReg | drw => simp [encode, decodeWord]
  | ldReg x y | orReg x y | andReg x y | xorReg x y | addReg x y | subReg x y | shr x y | subnReg x y | shl x y =>
    exact decodeWord_layoutXY_eight x y _
  | skp x | sknp x => exact decodeWord_layoutXI_fourteen x _
  | ldVxDt x | ldVxK x | ldDtVx x | ldStVx x | addI x | ldF x | ldB x | storeRegs x | loadRegs x =>
    exact decodeWord_layoutXI_fifteen x _

theorem decodeBytes_encodeBytes_append (i : Instr) (rest : List Byte) :
    decodeBytes (encodeBytes i ++ rest) = .ok (i, rest) := by
  simp [encodeBytes, decodeBytes, wordOfBytes_bytes, decodeWord_encode]

/-- Settles O2: by cases on the instruction, whose layout gives back the fields put into it. -/
theorem decodeInvertsEncode : Obligations.DecodeInvertsEncode :=
  fun i => ⟨decodeWord_encode i, decodeBytes_encodeBytes_append i⟩

/-! ## From a word to its instruction and back -/

/-- Layout `A` as a number. -/
theorem toNat_layoutA (t : Nibble) (nnn : Imm12) : (layoutA t nnn).toNat = t.toNat * 4096 + nnn.toNat := by
  simp only [layoutA, BitVec.toNat_append]
  rw [← Nat.shiftLeft_add_eq_or_of_lt nnn.isLt, Nat.shiftLeft_eq]

/-- A word is the layout of its top nibble and the rest. -/
theorem layoutA_fields (op : Word) : layoutA (topNibble op) (fieldNNN op) = op := by
  apply BitVec.eq_of_toNat_eq
  rw [toNat_layoutA, toNat_topNibble, toNat_fieldNNN]
  omega

theorem layoutXI_fields (op : Word) : layoutXI (topNibble op) (fieldX op) (fieldNN op) = op := by
  apply BitVec.eq_of_toNat_eq
  rw [toNat_layoutXI, toNat_topNibble, toNat_fieldX, toNat_fieldNN]
  omega

theorem layoutXY_fields (op : Word) : layoutXY (topNibble op) (fieldX op) (fieldY op) (fieldN op) = op := by
  apply BitVec.eq_of_toNat_eq
  rw [toNat_layoutXY, toNat_topNibble, toNat_fieldX, toNat_fieldY, toNat_fieldN]
  omega

theorem encode_of_decodeZero {nnn : Imm12} {i : Instr} (h : decodeZero nnn = some i) :
    encode i = layoutA 0x0#4 nnn := by
  unfold decodeZero at h
  split at h <;> cases h <;> rfl

theorem encode_of_decodeAlu {x y n : Nibble} {i : Instr} (h : decodeAlu x y n = some i) :
    encode i = layoutXY 0x8#4 x y n := by
  unfold decodeAlu at h
  split at h <;> cases h <;> rfl

theorem encode_of_decodeKeys {x : Nibble} {nn : Byte} {i : Instr} (h : decodeKeys x nn = some i) :
    encode i = layoutXI 0xE#4 x nn := by
  unfold decodeKeys at h
  split at h <;> cases h <;> rfl

theorem encode_of_decodeMisc {x : Nibble} {nn : Byte} {i : Instr} (h : decodeMisc x nn = some i) :
    encode i = layoutXI 0xF#4 x nn := by
  unfold decodeMisc at h
  split at h <;> cases h <;> rfl

theorem encode_of_decodeWord {op : Word} {i : Instr} (h : decodeWord op = some i) : encode i = op := by
  have hA := layoutA_fields op
  have hXI := layoutXI_fields op
  have hXY := layoutXY_fields op
  simp only [decodeWord] at h
  split at h
  case h_1 top => rw [encode_of_decodeZero h, ← top, hA]
  case h_2 top | h_3 top | h_11 top | h_12 top => cases h; rw [top] at hA; exact hA
  case h_4 top | h_5 top | h_7 top | h_8 top | h_13 top => cases h; rw [top] at hXI; exact hXI
  case h_6 top | h_10 top =>
    split at h <;> cases h
    next low => rw [top, low] at hXY; exact hXY
  case h_9 top => rw [encode_of_decodeAlu h, ← top, hXY]
  case h_14 top => cases h; rw [top] at hXY; exact hXY
  case h_15 top => rw [encode_of_decodeKeys h, ← top, hXI]
  case h_16 =>
    -- the default arm: the top nibble is none of the fifteen values above
    simp only [imp_false] at *
    have top : topNibble op = 0xF#4 := by bv_omega
    rw [encode_of_decodeMisc h, ← top, hXI]

/-- Settles O3: the fields of a word, which select its instruction, are all of the word. -/
theorem encodeInvertsDecode : Obligations.EncodeInvertsDecode := fun _ _ h => encode_of_decodeWord h

end Sys2Proof
end

section
/-!
PROOF. The decoder and the opcode map (30_encoding.md sections 4 and 6): a word decodes exactly where a row of the map
covers it, and then to an instruction of that row.
-/

namespace Sys2Proof

theorem encode_and_mask : ∀ i : Instr, encode i &&& i.row.mask = i.row.pattern
  | .cls => Laws.EncodingRow.cls
  | .ret => Laws.EncodingRow.ret
  | .jp _ => Laws.EncodingRow.jp _
  | .call _ => Laws.EncodingRow.call _
  | .seImm _ _ => Laws.EncodingRow.seImm _ _
  | .sneImm _ _ => Laws.EncodingRow.sneImm _ _
  | .seReg _ _ => Laws.EncodingRow.seReg _ _
  | .ldImm _ _ => Laws.EncodingRow.ldImm _ _
  | .addImm _ _ => Laws.EncodingRow.addImm _ _
  | .ldReg _ _ => Laws.EncodingRow.ldReg _ _
  | .orReg _ _ => Laws.EncodingRow.orReg _ _
  | .andReg _ _ => Laws.EncodingRow.andReg _ _
  | .xorReg _ _ => Laws.EncodingRow.xorReg _ _
  | .addReg _ _ => Laws.EncodingRow.addReg _ _
  | .subReg _ _ => Laws.EncodingRow.subReg _ _
  | .shr _ _ => Laws.EncodingRow.shr _ _
  | .subnReg _ _ => Laws.EncodingRow.subnReg _ _
  | .shl _ _ => Laws.EncodingRow.shl _ _
  | .sneReg _ _ => Laws.EncodingRow.sneReg _ _
  | .ldI _ => Laws.EncodingRow.ldI _
  | .jpV0 _ => Laws.EncodingRow.jpV0 _
  | .rnd _ _ => Laws.EncodingRow.rnd _ _
  | .drw _ _ _ => Laws.EncodingRow.drw _ _ _
  | .skp _ => Laws.EncodingRow.skp _
  | .sknp _ => Laws.EncodingRow.sknp _
  | .ldVxDt _ => Laws.EncodingRow.ldVxDt _
  | .ldVxK _ => Laws.EncodingRow.ldVxK _
  | .ldDtVx _ => Laws.EncodingRow.ldDtVx _
  | .ldStVx _ => Laws.EncodingRow.ldStVx _
  | .addI _ => Laws.EncodingRow.addI _
  | .ldF _ => Laws.EncodingRow.ldF _
  | .ldB _ => Laws.EncodingRow.ldB _
  | .storeRegs _ => Laws.EncodingRow.storeRegs _
  | .loadRegs _ => Laws.EncodingRow.loadRegs _

theorem covers_iff {r : OpcodeRow} {op : Word} : r.covers op = true ↔ op &&& r.mask = r.pattern := by
  simp [OpcodeRow.covers]

theorem row_mem_opcodeMap (i : Instr) : i.row ∈ opcodeMap := by
  cases i <;> simp [Instr.row, opcodeMap]

/-- A word that decodes is covered by the row of its instruction, since it is that instruction's encoding. -/
theorem row_covers_of_decodeWord {op : Word} {i : Instr} (h : decodeWord op = some i) : i.row.covers op = true := by
  rw [covers_iff, ← encode_of_decodeWord h, encode_and_mask]

theorem opcodeMap_pairwise_disjoint : opcodeMap.Pairwise fun r q => r.disjoint q = true := by decide

/-- Rows that cover one word agree on the bits that both fix. -/
theorem not_disjoint_of_covers {r q : OpcodeRow} {op : Word} (hr : r.covers op = true) (hq : q.covers op = true) :
    ¬r.disjoint q = true := by
  rw [covers_iff] at hr hq
  simp [OpcodeRow.disjoint, ← hr, ← hq, BitVec.and_assoc, BitVec.and_comm r.mask]

theorem row_eq_of_covers {r q : OpcodeRow} {op : Word} (hr : r ∈ opcodeMap) (hq : q ∈ opcodeMap)
    (cr : r.covers op = true) (cq : q.covers op = true) : r = q := by
  by_contra hne
  have symm : Std.Symm fun r q : OpcodeRow => r.disjoint q = true :=
    ⟨fun r q h => by rw [OpcodeRow.disjoint, bne_comm]; exact h⟩
  exact not_disjoint_of_covers cr cq (opcodeMap_pairwise_disjoint.forall hr hq hne)

/-! The fields of a word that a mask keeps are those of the masked word. -/

theorem topNibble_and (op mask : Word) : topNibble (op &&& mask) = topNibble op &&& topNibble mask :=
  BitVec.extractLsb'_and

theorem fieldN_and (op mask : Word) : fieldN (op &&& mask) = fieldN op &&& fieldN mask := BitVec.extractLsb'_and

theorem fieldNN_and (op mask : Word) : fieldNN (op &&& mask) = fieldNN op &&& fieldNN mask := BitVec.extractLsb'_and

/-- A row that covers a word fixes the fields that select the instruction (R75): `top` for every row, `low` for the rows
of mask 0xF00F, `byte` for those of mask 0xF0FF. -/
theorem decodeWord_isSome_of_covers {r : OpcodeRow} {op : Word} (hr : r ∈ opcodeMap) (hc : r.covers op = true) :
    (decodeWord op).isSome = true := by
  rw [covers_iff] at hc
  have top := topNibble_and op r.mask
  have low := fieldN_and op r.mask
  have byte := fieldNN_and op r.mask
  rw [hc] at top low byte
  have nibble (a : Nibble) : a &&& 15#4 = a := BitVec.and_allOnes
  have whole (a : Byte) : a &&& 255#8 = a := BitVec.and_allOnes
  have word (a : Word) : a &&& 65535#16 = a := BitVec.and_allOnes
  simp only [opcodeMap, List.cons_append, List.nil_append, List.mem_cons, List.not_mem_nil, or_false] at hr
  rcases hr with rfl | rfl | rfl | rfl | rfl | rfl | rfl | rfl | rfl | rfl | rfl | rfl | rfl | rfl | rfl | rfl | rfl |
    rfl | rfl | rfl | rfl | rfl | rfl | rfl | rfl | rfl | rfl | rfl | rfl | rfl | rfl | rfl | rfl | rfl
  case inl | inr.inl =>
    rw [word] at hc
    subst hc
    decide
  all_goals
    simp only [topNibble, fieldN, fieldNN, BitVec.reduceExtractLsb', nibble, whole] at top low byte
    simp [decodeWord, decodeAlu, decodeKeys, decodeMisc, topNibble, fieldN, fieldNN, ← top, ← low, ← byte]

/-- The decoder knows exactly the words that the opcode map covers. -/
theorem decodeWord_isSome (op : Word) : (decodeWord op).isSome = wellFormedWord op := by
  rw [Bool.eq_iff_iff, Option.isSome_iff_exists, wellFormedWord, List.any_eq_true]
  constructor
  · rintro ⟨i, h⟩
    exact ⟨i.row, row_mem_opcodeMap i, row_covers_of_decodeWord h⟩
  · rintro ⟨r, hr, hc⟩
    exact Option.isSome_iff_exists.1 (decodeWord_isSome_of_covers hr hc)

/-- Settles O4: an instruction's own row covers its word, disjoint rows cover no word in common, and a covering row fixes
the fields that the decoder tests. -/
theorem decoderAgreesWithOpcodeMap : Obligations.DecoderAgreesWithOpcodeMap :=
  ⟨decodeWord_isSome,
    fun _ i _ h hr hc => row_eq_of_covers (row_mem_opcodeMap i) hr (row_covers_of_decodeWord h) hc,
    rfl, opcodeMap_pairwise_disjoint⟩

/-- A word that no row covers does not decode (R77). -/
theorem decodeWord_eq_none_of_not_wellFormed {op : Word} (h : wellFormedWord op = false) : decodeWord op = none := by
  rw [← Option.isNone_iff_eq_none, ← Option.not_isSome, decodeWord_isSome, h, Bool.not_false]

/-- Settles O1: the words of section 2.8 that are instructions stand among the model's decode lemmas, the unknown ones
are evaluated. -/
theorem sampleWordsDecode : Obligations.SampleWordsDecode :=
  ⟨decode_00E0, decode_00EE, decode_2ABC, decode_3A7F, decode_8ABE, decode_A123, decode_D125, decode_E3A1, decode_F365,
    by decide⟩

end Sys2Proof
end

section
/-!
PROOF. The Step procedure (30_encoding.md section 4): the latch, the fetch range, then the word at `pc`.
-/

namespace Sys2Proof.Machine

theorem step_of_fault {s : State} (h : s.fault ≠ none) : step s = .next s := by
  obtain ⟨f, hf⟩ := Option.ne_none_iff_exists'.1 h
  simp [step, hf]

theorem step_of_fetch {s : State} {op : Word} (hf : s.fault = none) (hw : fetch s = some op) :
    step s = execWord op s := by
  simp [step, hf, hw]

theorem step_of_fetch_range {s : State} (hf : s.fault = none) (hpc : s.pc.toNat > 0xFFE) :
    step s = .next { s with fault := some (.fetchRange, s.pc.toNat) } := by
  simp [step, hf, fetch_eq_none.2 hpc, raise]

theorem execWord_of_decodeWord {op : Word} {i : Instr} (h : decodeWord op = some i) (s : State) :
    execWord op s = exec i s := by
  simp [execWord, h]

/-- Settles O5: the word at `pc` is the one fetched, and decodes to the instruction. -/
theorem stepRunsDecodedInstruction : Obligations.StepRunsDecodedInstruction := by
  intro s op i hf hw hd
  rw [step_of_fetch hf (wordAtPc_iff.1 hw), execWord_of_decodeWord hd]

/-- Settles O6: one rule of the procedure for each clause, in its order. -/
theorem stepChecksLatchThenFetchRange : Obligations.StepChecksLatchThenFetchRange := by
  intro s
  refine ⟨step_of_fault, step_of_fetch_range, fun hf hpc => ?_⟩
  have hw : fetch s = some _ := fetch_eq_some.2 ⟨hpc, rfl⟩
  exact ⟨_, wordAtPc_iff.2 hw, step_of_fetch hf hw⟩

theorem step_of_unknown {s : State} {op : Word} (hf : s.fault = none) (hw : WordAtPc s op)
    (hd : decodeWord op = none) : step s = skipUnknown op s := by
  rw [step_of_fetch hf (wordAtPc_iff.1 hw), execWord, hd]

/-- The default advance from where a word can be fetched does not wrap (R24, R25). -/
theorem toNat_add_two {pc : Word} (h : pc.toNat ≤ 0xFFE) : (pc + 2#16).toNat = pc.toNat + 2 := by
  rw [BitVec.toNat_add_of_lt] <;> simp
  omega

/-- Settles O7: a word that no row covers does not decode, and `skipUnknown` writes the outputs and `pc` alone. -/
theorem unknownWordIsReportedAndSkipped : Obligations.UnknownWordIsReportedAndSkipped := by
  intro s op hf hw hu
  refine ⟨_, step_of_unknown hf hw (decodeWord_eq_none_of_not_wellFormed hu), toNat_add_two hw.1, rfl, ?_⟩
  apply onlyChanges_of_fields <;> simp

/-! ## A placed word (log 23) -/

theorem withFetchWord_pc_le (s : State) (nbits w : Nat) : (s.withFetchWord nbits w).pc.toNat ≤ 0xFFE := by
  unfold State.withFetchWord
  split
  · show Config.progBase.toNat ≤ 0xFFE
    decide
  · next h => exact Nat.le_of_not_gt h

theorem withFetchWord_mem (s : State) {w : Nat} (hw : w < 65536) :
    (s.withFetchWord 16 w).mem = writeBytes s.mem (s.withFetchWord 16 w).pc.toNat
      [highByte (BitVec.ofNat 16 w), lowByte (BitVec.ofNat 16 w)] := by
  simp [State.withFetchWord, Nat.mod_eq_of_lt hw]

theorem fetch_of_writeBytes {s : State} {m : Memory} {op : Word} (wf : Memory.wf m = true) (hpc : s.pc.toNat ≤ 0xFFE)
    (hm : s.mem = writeBytes m s.pc.toNat [highByte op, lowByte op]) : fetch s = some op := by
  have hlen : s.pc.toNat + [highByte op, lowByte op].length ≤ 4096 := by simp; omega
  rw [fetch_eq_some, hm, readByte_writeBytes _ hlen wf, readByte_writeBytes _ hlen wf]
  refine ⟨hpc, ?_⟩
  simpa [wordOfBytes] using (wordOfBytes_bytes op).symm

/-- Settles O8: the two bytes stored at `pc` are the bytes of the word, so the fetch gives it back. -/
theorem placedTableWordRunsNext : Obligations.PlacedTableWordRunsNext := by
  intro s w hw wf
  have hpc := withFetchWord_pc_le s 16 w
  have hm := withFetchWord_mem s hw
  refine ⟨step_of_fetch rfl (fetch_of_writeBytes wf hpc hm), ?_, ?_⟩
  · rw [hm]
    exact wf_writeBytes _ (by simp; omega) wf
  · intro a ha
    rw [hm, readByte_writeBytes _ (by simp; omega) wf, if_neg]
    simp
    omega

end Sys2Proof.Machine
end

section
/-!
PROOF. What an instruction answers, said once: the fault it latches by the table of R170, or its effect where it latches
none. Every statement about all instructions goes through `exec_eq`.
-/

namespace Sys2Proof.Machine

/-- The fault of `count` accesses from `base` on (R59, R172). -/
def rangeFault (base count : Nat) : Option (Fault × Nat) :=
  if count ≠ 0 ∧ base + (count - 1) > 0xFFF then some (.memRange, base + (count - 1)) else none

/-- The fault an instruction latches, with its info (R170, R172 to R175). -/
def faultOf (i : Instr) (s : State) : Option (Fault × Nat) :=
  match i with
  | .ret => if s.sp.val = 0 then some (.stackUnderflow, s.pc.toNat) else none
  | .call _ => if s.sp.val = 16 then some (.stackOverflow, s.pc.toNat) else none
  | .skp x | .sknp x => if (readReg s x).toNat > 15 then some (.keyRange, (readReg s x).toNat) else none
  | .ldB _ => rangeFault (baseAddress s) 3
  | .storeRegs x | .loadRegs x => rangeFault (baseAddress s) (x.toNat + 1)
  | .drw _ _ n => rangeFault (baseAddress s) n.toNat
  | _ => none

/-- The effect of an instruction that latches no fault. -/
def effectOf (i : Instr) (s : State) : State :=
  match i with
  | .cls => advance { s with fb := Framebuffer.blank }
  | .ret => if held : 0 < s.sp.val then setPc ((pop s held).1 + 2#16) (pop s held).2 else s
  | .jp nnn => setPc (extend nnn) s
  | .call nnn => if room : s.sp.val < 16 then setPc (extend nnn) (push s.pc s room) else s
  | .seImm x nn => skipIf (readReg s x == nn) s
  | .sneImm x nn => skipIf (readReg s x != nn) s
  | .seReg x y => skipIf (readReg s x == readReg s y) s
  | .ldImm x nn => advance (setReg x nn s)
  | .addImm x nn => advance (setReg x (readReg s x + nn) s)
  | .ldReg x y => advance (setReg x (readReg s y) s)
  | .orReg x y => advance (setReg x (readReg s x ||| readReg s y) s)
  | .andReg x y => advance (setReg x (readReg s x &&& readReg s y) s)
  | .xorReg x y => advance (setReg x (readReg s x ^^^ readReg s y) s)
  | .addReg x y =>
    advance (setFlag (carryFlag (readReg s x) (readReg s y)) (setReg x (readReg s x + readReg s y) s))
  | .subReg x y =>
    advance (setFlag (noBorrowFlag (readReg s x) (readReg s y)) (setReg x (readReg s x - readReg s y) s))
  | .shr x _ => advance (setReg x (readReg s x >>> 1) (setFlag (lowBitFlag (readReg s x)) s))
  | .subnReg x y =>
    advance (setFlag (noBorrowFlag (readReg s y) (readReg s x)) (setReg x (readReg s y - readReg s x) s))
  | .shl x _ => advance (setReg x (readReg s x <<< 1) (setFlag (highBitFlag (readReg s x)) s))
  | .sneReg x y => skipIf (readReg s x != readReg s y) s
  | .ldI nnn => advance (setIndex (extend nnn) s)
  | .jpV0 nnn => setPc (extend nnn + (readReg s 0x0#4).setWidth 16) s
  | .rnd x nn => advance (setReg x (Config.randomByte s.draws &&& nn) { s with draws := s.draws + 1 })
  | .drw x y n =>
    advance (compose (readReg s x).toNat (readReg s y).toNat (readBytes s.mem (baseAddress s) n.toNat) s)
  | .skp x => skipIf (namedKey s (readReg s x) == some true) s
  | .sknp x => skipIf (namedKey s (readReg s x) == some false) s
  | .ldVxDt x => advance (setReg x s.dt s)
  | .ldVxK x => (lowestKey s).elim s fun k => advance (setReg x (BitVec.ofNat 8 k.val) s)
  | .ldDtVx x => advance { s with dt := readReg s x }
  | .ldStVx x => advance { s with st := readReg s x }
  | .addI x =>
    advance (setFlag (rangeFlag (s.i.toNat + (readReg s x).toNat))
      (setIndex (BitVec.ofNat 16 (s.i.toNat + (readReg s x).toNat)) s))
  | .ldF x => advance (setIndex (BitVec.ofNat 16 ((readReg s x).toNat * 5)) s)
  | .ldB x => advance { s with mem := writeBytes s.mem (baseAddress s) (decimalDigits (readReg s x)) }
  | .storeRegs x => advance { s with mem := writeBytes s.mem (baseAddress s) (firstRegisters x s) }
  | .loadRegs x => advance (loadRegisters (readBytes s.mem (baseAddress s) (x.toNat + 1)) s)

/-- The latch takes the fault there is, and nothing else changes; else the effect is made (R180). -/
def latchOr (f : Option (Fault × Nat)) (effect s : State) : State :=
  f.elim effect fun f => { s with fault := some f }

theorem withinMemory_eq (base count : Nat) (effect : State → State) (s : State) :
    withinMemory base count effect s = .next (latchOr (rangeFault base count) (effect s) s) := by
  unfold withinMemory rangeFault
  split <;> rfl

theorem skipOnKey_eq (x : Nibble) (wanted : Bool) (s : State) :
    skipOnKey x wanted s = .next (latchOr
      (if (readReg s x).toNat > 15 then some (.keyRange, (readReg s x).toNat) else none)
      (skipIf (namedKey s (readReg s x) == some wanted) s) s) := by
  rcases skipOnKey_cases x wanted s with ⟨named, e⟩ | ⟨above, e⟩ <;> rw [e]
  · rw [if_neg (by omega), namedKey, Vector.getElem?_eq_getElem named]
    rfl
  · rw [if_pos above]
    rfl

theorem execRet_eq (s : State) : execRet s = .next (latchOr (faultOf .ret s) (effectOf .ret s) s) := by
  by_cases held : 0 < s.sp.val
  · simp [execRet, faultOf, effectOf, held, held.ne', latchOr]
  · simp [execRet, faultOf, Nat.eq_zero_of_not_pos held, latchOr, raise]

theorem execCall_eq (nnn : Imm12) (s : State) :
    execCall nnn s = .next (latchOr (faultOf (.call nnn) s) (effectOf (.call nnn) s) s) := by
  have := s.sp.isLt
  by_cases room : s.sp.val < 16
  · simp [execCall, faultOf, effectOf, room, room.ne, latchOr]
  · simp [execCall, faultOf, show s.sp.val = 16 by omega, latchOr, raise]

theorem execLdVxK_eq (x : Nibble) (s : State) : execLdVxK x s = .next (effectOf (.ldVxK x) s) := by
  unfold execLdVxK effectOf
  cases lowestKey s <;> rfl

/-- Every instruction answers a next state: its fault latched, or its effect (R11, R180). -/
theorem exec_eq (i : Instr) (s : State) : exec i s = .next (latchOr (faultOf i s) (effectOf i s) s) := by
  cases i with
  | ret => exact execRet_eq s
  | call nnn => exact execCall_eq nnn s
  | skp x => exact skipOnKey_eq x true s
  | sknp x => exact skipOnKey_eq x false s
  | ldVxK x => exact execLdVxK_eq x s
  | ldB x =>
    rw [exec_ldB, execLdB, storeAtIndex, withinMemory_eq]
    rfl
  | storeRegs x =>
    rw [exec_storeRegs, execStoreRegs, storeAtIndex, withinMemory_eq, length_firstRegisters]
    rfl
  | loadRegs x =>
    rw [exec_loadRegs, execLoadRegs, withinMemory_eq]
    rfl
  | drw x y n =>
    rw [exec_drw, execDrw, withinMemory_eq]
    rfl
  | _ => rfl

/-- Settles O9: the answer of an instruction is a next state, and so is each of the four answers of a `Step`. -/
theorem everyStepAnswersNextState : Obligations.EveryStepAnswersNextState := by
  refine ⟨fun i s => ⟨_, exec_eq i s⟩, fun s => ?_⟩
  rcases step_cases s with ⟨_, e⟩ | ⟨_, _, e⟩ | ⟨_, _, i, _, _, e⟩ | ⟨_, _, _, _, e⟩
  · exact ⟨s, e⟩
  · exact ⟨_, e⟩
  · exact ⟨_, e.trans (exec_eq i s)⟩
  · exact ⟨_, e⟩

/-- All that an instruction can leave: the latch alone written, or its effect. -/
theorem exec_cases {i : Instr} {s t : State} (h : exec i s = .next t) :
    (∃ f, faultOf i s = some f ∧ t = { s with fault := some f }) ∨ (faultOf i s = none ∧ t = effectOf i s) := by
  rw [exec_eq] at h
  cases h
  cases hf : faultOf i s with
  | some f => exact .inl ⟨f, rfl, rfl⟩
  | none => exact .inr ⟨rfl, rfl⟩

theorem exec_of_no_fault {i : Instr} {s : State} (h : faultOf i s = none) : exec i s = .next (effectOf i s) := by
  rw [exec_eq, h]
  rfl

theorem exec_of_fault {i : Instr} {s : State} {f : Fault × Nat} (h : faultOf i s = some f) :
    exec i s = .next { s with fault := some f } := by
  rw [exec_eq, h]
  rfl

/-! ## What an effect writes -/

theorem onlyChanges_refl (parts : List Part) (s : State) : OnlyChanges parts s s := by
  apply onlyChanges_of_fields <;> simp

theorem onlyChanges_fault (f : Option (Fault × Nat)) (s : State) : OnlyChanges [.latch] s { s with fault := f } := by
  apply onlyChanges_of_fields <;> simp

/-- The parts of the state beside `pc` that the effect of an instruction writes (R14). -/
def writesOf : Instr → List Part
  | .cls => [.screen]
  | .ret | .call _ => [.stack]
  | .ldImm _ _ | .addImm _ _ | .ldReg _ _ | .orReg _ _ | .andReg _ _ | .xorReg _ _ | .addReg _ _ | .subReg _ _
  | .shr _ _ | .subnReg _ _ | .shl _ _ | .ldVxDt _ | .ldVxK _ | .loadRegs _ => [.registers]
  | .ldI _ | .ldF _ => [.index]
  | .rnd _ _ => [.registers, .draws]
  | .drw _ _ _ => [.registers, .screen, .outputs]
  | .ldDtVx _ => [.delay]
  | .ldStVx _ => [.sound]
  | .addI _ => [.registers, .index]
  | .ldB _ | .storeRegs _ => [.memory]
  | .jp _ | .seImm _ _ | .sneImm _ _ | .seReg _ _ | .sneReg _ _ | .jpV0 _ | .skp _ | .sknp _ => []

theorem onlyChanges_effectOf (i : Instr) (s : State) : OnlyChanges (writesOf i) s (effectOf i s) := by
  cases i with
  | ret | call =>
    simp only [effectOf]
    split <;> apply onlyChanges_of_fields <;> simp [writesOf]
  | ldVxK =>
    simp only [effectOf]
    cases lowestKey s <;> apply onlyChanges_of_fields <;> simp [writesOf]
  | _ => apply onlyChanges_of_fields <;> simp [writesOf, effectOf, compose]

theorem effectOf_fault (i : Instr) (s : State) : (effectOf i s).fault = s.fault :=
  onlyChanges_effectOf i s .latch (by cases i <;> simp [writesOf])


/-! ## The fault table -/

theorem instrAtPc_unique {s : State} {i j : Instr} (h : InstrAtPc s i) : InstrAtPc s j ↔ j = i := by
  obtain ⟨op, hw, hd⟩ := h
  constructor
  · rintro ⟨op', hw', hd'⟩
    rw [wordAtPc_iff] at hw hw'
    cases hw.symm.trans hw'
    exact Option.some.inj (hd'.symm.trans hd)
  · rintro rfl
    exact ⟨op, hw, hd⟩

theorem faultCondition_iff {s : State} {i : Instr} (h : InstrAtPc s i) (code : Fault) (info : Nat) :
    FaultCondition s code info ↔ faultOf i s = some (code, info) := by
  have only : ∀ j, InstrAtPc s j ↔ j = i := fun j => instrAtPc_unique h
  have range : ¬s.pc.toNat > 0xFFE := by
    obtain ⟨_, hw, _⟩ := h
    exact Nat.not_lt.2 hw.1
  cases i <;> cases code <;> simp [FaultCondition, only, range, faultOf, rangeFault]
  case ldB.memRange | storeRegs.memRange | loadRegs.memRange | drw.memRange =>
    unfold baseAddress
    bv_omega
  all_goals exact fun _ => eq_comm

/-- Where no instruction stands at `pc` and `pc` is in range, no condition of the table holds (R176). -/
theorem not_faultCondition_of_unknown {s : State} (range : s.pc.toNat ≤ 0xFFE) (h : ∀ i, ¬InstrAtPc s i)
    (code : Fault) (info : Nat) : ¬FaultCondition s code info := by
  cases code <;> simp [FaultCondition, h, range]

/-- Out of fetch range only the condition of `FETCH_RANGE` holds, since no instruction stands at `pc`. -/
theorem faultCondition_of_fetch_range {s : State} (hpc : s.pc.toNat > 0xFFE) (code : Fault) (info : Nat) :
    FaultCondition s code info ↔ (code, info) = (.fetchRange, s.pc.toNat) := by
  have none_there : ∀ i, ¬InstrAtPc s i := fun i ⟨_, hw, _⟩ => Nat.not_lt.2 hw.1 hpc
  cases code <;> simp [FaultCondition, none_there, hpc]

/-- Settles O10: by the four answers of a `Step`; for an instruction, the conditions of the table that speak of it are the
fault it latches, and its effect leaves the latch empty. -/
theorem faultsArePreciseAndComplete : Obligations.FaultsArePreciseAndComplete := by
  intro s t hf hs
  rcases step_cases s with ⟨latched, _⟩ | ⟨_, hpc, e⟩ | ⟨_, op, i, hw, hd, e⟩ | ⟨_, op, hw, hd, e⟩
  · exact absurd hf latched
  · cases e.symm.trans hs
    simp only [faultCondition_of_fetch_range hpc]
    grind
  · have at_pc : InstrAtPc s i := ⟨op, wordAtPc_iff.2 hw, hd⟩
    simp only [faultCondition_iff at_pc]
    rcases exec_cases (e.symm.trans hs) with ⟨f, hfault, rfl⟩ | ⟨hfault, rfl⟩
    · grind
    · rw [effectOf_fault, hf, hfault]
      simp
  · have none_there : ∀ i, ¬InstrAtPc s i := by
      rintro i ⟨op', hw', hd'⟩
      cases hw.symm.trans (wordAtPc_iff.1 hw')
      cases hd.symm.trans hd'
    simp only [not_faultCondition_of_unknown (wordAtPc_iff.2 hw).1 none_there]
    cases e.symm.trans hs
    simp [hf]

end Sys2Proof.Machine
end

section
/-!
PROOF. Who writes which part of the state (R14): from the parts and the registers that each effect writes.
-/

namespace Sys2Proof.Machine

/-- The registers that the effect of an instruction may write (R14, R22). -/
def WritesRegister (i : Instr) (r : Nibble) : Prop :=
  match i with
  | .ldImm x _ | .addImm x _ | .rnd x _ | .ldReg x _ | .orReg x _ | .andReg x _ | .xorReg x _ | .ldVxDt x
  | .ldVxK x => r = x
  | .loadRegs x => r.toNat ≤ x.toNat
  | .addReg x _ | .subReg x _ | .shr x _ | .subnReg x _ | .shl x _ => r = x ∨ r = 0xF#4
  | .addI _ | .drw _ _ _ => r = 0xF#4
  | _ => False

theorem readReg_effectOf {i : Instr} {r : Nibble} (h : ¬WritesRegister i r) (s : State) :
    readReg (effectOf i s) r = readReg s r := by
  by_cases hreg : .registers ∈ writesOf i
  · cases i with
    | loadRegs x =>
      have above : x.toNat + 1 ≤ r.toNat := Nat.lt_of_not_le h
      rw [effectOf, readReg_advance, readReg_loadRegisters, getD_readBytes_of_le _ _ _ above]
    | rnd x nn | drw x y n => exact readReg_setReg_other h _ _
    | ldVxK x =>
      simp only [WritesRegister] at h
      simp only [effectOf]
      cases lowestKey s <;> simp [readReg_setReg, h]
    | _ => simp_all [WritesRegister, writesOf, effectOf, readReg_setReg, readReg_setFlag]
  · exact onlyChanges_effectOf i s .registers hreg r

/-- Memory is kept as a list, not only in what it reads as, by every effect that does not write it. -/
theorem effectOf_mem {i : Instr} (h : .memory ∉ writesOf i) (s : State) : (effectOf i s).mem = s.mem := by
  cases i with
  | ldB | storeRegs => simp [writesOf] at h
  | ret | call => simp only [effectOf]; split <;> rfl
  | ldVxK => simp only [effectOf]; cases lowestKey s <;> rfl
  | _ => rfl

theorem effectOf_ret_stack (s : State) : (effectOf .ret s).stack = s.stack := by
  simp only [effectOf]
  split <;> rfl

/-- A part that an instruction changes is one that its effect writes, or the latch. -/
theorem mem_writesOf_of_changed {i : Instr} {s t : State} {p : Part} (h : exec i s = .next t) (latch : p ≠ .latch)
    (changed : ¬SamePart s t p) : p ∈ writesOf i := by
  by_contra notWritten
  rcases exec_cases h with ⟨_, _, rfl⟩ | ⟨_, rfl⟩
  · exact changed (onlyChanges_fault _ s p (by simpa using latch))
  · exact changed (onlyChanges_effectOf i s p notWritten)

theorem writesRegister_of_changed {i : Instr} {s t : State} {r : Nibble} (h : exec i s = .next t)
    (changed : readReg t r ≠ readReg s r) : WritesRegister i r := by
  by_contra notWritten
  rcases exec_cases h with ⟨_, _, rfl⟩ | ⟨_, rfl⟩
  · exact changed rfl
  · exact changed (readReg_effectOf notWritten s)

theorem faultOf_ne_none_of_changed {i : Instr} {s t : State} (h : exec i s = .next t) (changed : t.fault ≠ s.fault) :
    faultOf i s ≠ none := by
  rcases exec_cases h with ⟨_, hf, _⟩ | ⟨_, rfl⟩
  · simp [hf]
  · exact absurd (effectOf_fault i s) changed

theorem memory_mem_writesOf_of_changed {i : Instr} {s t : State} (h : exec i s = .next t) (changed : t.mem ≠ s.mem) :
    .memory ∈ writesOf i := by
  by_contra notWritten
  rcases exec_cases h with ⟨_, _, rfl⟩ | ⟨_, rfl⟩
  · exact changed rfl
  · exact changed (effectOf_mem notWritten s)

/-- Settles O11: a part that changed is one that the effect writes (the latch: one whose instruction has a fault), and
the writers of each part are read off `writesOf`, `WritesRegister` and `faultOf`. -/
theorem stateIsWrittenOnlyByItsWriters : Obligations.StateIsWrittenOnlyByItsWriters := by
  intro i s t h
  refine ⟨?keys, fun r changed => ?registers, fun changed => ?latch, fun changed => ?screen, fun changed => ?index,
    fun changed => ?delay, fun changed => ?sound, fun changed => ?sp, fun changed => ?slots, fun changed => ?memory,
    fun changed => ?draws, fun changed => ?outputs⟩
  case keys =>
    by_contra changed
    have := mem_writesOf_of_changed (p := .keys) h (by simp) changed
    cases i <;> simp [writesOf] at this
  case registers =>
    have := writesRegister_of_changed h changed
    cases i <;> simp [WritesRegister] at this ⊢ <;> simp [this]
  case latch =>
    have := faultOf_ne_none_of_changed h changed
    cases i <;> simp [faultOf] at this ⊢
  case screen =>
    have := mem_writesOf_of_changed (p := .screen) h (by simp) fun same => changed (Framebuffer.ext_cell same)
    cases i <;> simp [writesOf] at this ⊢
  case index =>
    have := mem_writesOf_of_changed (p := .index) h (by simp) changed
    cases i <;> simp [writesOf] at this ⊢
  case delay =>
    have := mem_writesOf_of_changed (p := .delay) h (by simp) changed
    cases i <;> simp [writesOf] at this ⊢
  case sound =>
    have := mem_writesOf_of_changed (p := .sound) h (by simp) changed
    cases i <;> simp [writesOf] at this ⊢
  case sp =>
    have := mem_writesOf_of_changed (p := .stack) h (by simp) fun same => changed same.1
    cases i <;> simp [writesOf] at this ⊢
  case slots =>
    have := mem_writesOf_of_changed (p := .stack) h (by simp) fun same => changed same.2
    cases i with
    | ret =>
      rcases exec_cases h with ⟨_, _, rfl⟩ | ⟨_, rfl⟩
      · exact absurd rfl changed
      · exact absurd (effectOf_ret_stack s) changed
    | _ => simp [writesOf] at this ⊢
  case memory =>
    have := memory_mem_writesOf_of_changed h changed
    cases i <;> simp [writesOf] at this ⊢
  case draws =>
    have := mem_writesOf_of_changed (p := .draws) h (by simp) changed
    cases i <;> simp [writesOf] at this ⊢
  case outputs =>
    have := mem_writesOf_of_changed (p := .outputs) h (by simp) changed
    cases i <;> simp [writesOf] at this ⊢

/-- Settles O12: `VF` is a register, and these are the instructions that may write it. -/
theorem flagIsWrittenOnlyByItsWriters : Obligations.FlagIsWrittenOnlyByItsWriters := by
  intro i s t h changed
  have := writesRegister_of_changed h changed
  cases i with
  | loadRegs x =>
    simp only [WritesRegister] at this
    have : x = 0xF#4 := by bv_omega
    simp [this]
  | _ => simp [WritesRegister] at this ⊢ <;> simp [this]

end Sys2Proof.Machine
end

section
/-!
PROOF. The invariant (10_state.md sections 3, 5 and 11): kept by the effect of every instruction that was fetched, by the
other answers of a `Step`, and by every event of the host.
-/

namespace Sys2Proof.Machine

/-- Settles O13: nothing is listed in memory, `pc` is 0x200 and every slot is 0. -/
theorem powerOnStateMeetsInvariant : Obligations.PowerOnStateMeetsInvariant := ⟨wf_nil, by decide, by decide⟩

/-- The invariant speaks of memory, `pc` and the slots alone. -/
theorem State.Inv.congr {s t : State} (h : s.Inv) (mem : t.mem = s.mem) (pc : t.pc = s.pc) (stack : t.stack = s.stack) :
    t.Inv := by
  obtain ⟨hm, hpc, hst⟩ := h
  exact ⟨mem ▸ hm, pc ▸ hpc, stack ▸ hst⟩

theorem rangeFault_eq_none {base count : Nat} : rangeFault base count = none ↔ count = 0 ∨ base + count ≤ 4096 := by
  simp only [rangeFault, ite_eq_right_iff, reduceCtorEq, imp_false]
  omega

theorem wf_effectOf {i : Instr} {s : State} (hf : faultOf i s = none) (wf : Memory.wf s.mem = true) :
    Memory.wf (effectOf i s).mem = true := by
  by_cases hm : .memory ∈ writesOf i
  · cases i with
    | ldB x =>
      have room := rangeFault_eq_none.1 hf
      exact wf_writeBytes _ (by rw [length_decimalDigits]; omega) wf
    | storeRegs x =>
      have room := rangeFault_eq_none.1 hf
      exact wf_writeBytes _ (by rw [length_firstRegisters]; omega) wf
    | _ => simp [writesOf] at hm
  · rw [effectOf_mem hm]
    exact wf

/-- The target of 00EE is 2 past a slot (R100). -/
theorem effectOf_ret_pc {s : State} (held : 0 < s.sp.val) (slot : s.sp.val - 1 < 16) :
    (effectOf .ret s).pc = s.stack[s.sp.val - 1] + 2#16 := by
  simp [effectOf, held, pop]

/-- A target is 12 bits, Bnnn adds a byte, a return goes 2 past a fetched address, and everything else at most 4 past the
instruction (R25). -/
theorem effectOf_pc_le {i : Instr} {s : State} (hpc : s.pc.toNat ≤ 0xFFE)
    (hst : ∀ k : Fin 16, (s.stack[k]).toNat ≤ 0xFFE) : (effectOf i s).pc.toNat ≤ 0x10FE := by
  have next := toNat_add_two hpc
  have skip (taken : Bool) : (skipIf taken s).pc.toNat ≤ 0x10FE := by
    cases taken <;> simp <;> bv_omega
  have target (nnn : Imm12) : (extend nnn).toNat ≤ 0xFFF := by
    rw [toNat_extend]
    omega
  cases i with
  | ret =>
    by_cases held : 0 < s.sp.val
    · have slot : s.sp.val - 1 < 16 := by omega
      have := hst ⟨s.sp.val - 1, slot⟩
      rw [effectOf_ret_pc held slot, toNat_add_two (by exact this)]
      exact (Nat.add_le_add_right this 2).trans (by decide)
    · simp only [effectOf, held, dite_false]
      omega
  | jp nnn => exact (target nnn).trans (by decide)
  | call nnn =>
    have := target nnn
    simp only [effectOf]
    split
    · rw [setPc_pc]
      omega
    · omega
  | jpV0 nnn =>
    have := target nnn
    have := (readReg s 0x0#4).isLt
    simp only [effectOf, setPc_pc]
    bv_omega
  | seImm | sneImm | seReg | sneReg | skp | sknp => exact skip _
  | ldVxK =>
    simp only [effectOf]
    cases lowestKey s with
    | none => exact hpc.trans (by decide)
    | some k =>
      show (s.pc + 2#16).toNat ≤ 0x10FE
      omega
  | _ =>
    show (s.pc + 2#16).toNat ≤ 0x10FE
    omega

/-- Only a call changes the slots, and it pushes its own address, from which it was fetched (R34, R102). -/
theorem effectOf_stack_le {i : Instr} {s : State} (hpc : s.pc.toNat ≤ 0xFFE)
    (hst : ∀ k : Fin 16, (s.stack[k]).toNat ≤ 0xFFE) (k : Fin 16) : ((effectOf i s).stack[k]).toNat ≤ 0xFFE := by
  by_cases hs : .stack ∈ writesOf i
  · cases i with
    | call nnn =>
      simp only [effectOf]
      split
      · simp only [setPc_stack, push_stack, Fin.getElem_fin, Vector.getElem_set]
        split
        · exact hpc
        · exact hst k
      · exact hst k
    | ret =>
      rw [effectOf_ret_stack]
      exact hst k
    | _ => simp [writesOf] at hs
  · obtain ⟨_, same⟩ := onlyChanges_effectOf i s .stack hs
    rw [same]
    exact hst k

/-- Settles O14: by the four answers of a `Step`; an instruction that latches no fault makes its effect, which keeps each
clause of the invariant. -/
theorem stepKeepsInvariant : Obligations.StepKeepsInvariant := by
  intro s t inv hs
  rcases step_cases s with ⟨_, e⟩ | ⟨_, _, e⟩ | ⟨_, op, i, hw, _, e⟩ | ⟨_, op, hw, _, e⟩
  · cases e.symm.trans hs
    exact inv
  · cases e.symm.trans hs
    exact inv.congr rfl rfl rfl
  · obtain ⟨hpc, _⟩ := fetch_eq_some.1 hw
    rcases exec_cases (e.symm.trans hs) with ⟨_, _, rfl⟩ | ⟨hf, rfl⟩
    · exact inv.congr rfl rfl rfl
    · exact ⟨wf_effectOf hf inv.memory, effectOf_pc_le hpc inv.stack, effectOf_stack_le hpc inv.stack⟩
  · obtain ⟨hpc, _⟩ := fetch_eq_some.1 hw
    cases e.symm.trans hs
    refine ⟨inv.memory, ?_, inv.stack⟩
    show (s.pc + 2#16).toNat ≤ 0x10FE
    rw [toNat_add_two hpc]
    omega

/-! ## The host's events -/

theorem load_of_le {image : List Byte} (h : image.length ≤ 3584) (s : State) :
    load image s = .next { s with mem := writeBytes s.mem 0x200 image } := by
  simp [load, wellFormedImage, Config.maxImage, h, Config.progBase]

theorem load_of_gt {image : List Byte} (h : image.length > 3584) (s : State) :
    load image s = .refused .imageTooLarge := by
  simp [load, wellFormedImage, Config.maxImage, Nat.not_le_of_lt h]

theorem load_cases {image : List Byte} {s t : State} (h : load image s = .next t) :
    image.length ≤ 3584 ∧ t = { s with mem := writeBytes s.mem 0x200 image } := by
  by_cases fits : image.length ≤ 3584
  · rw [load_of_le fits] at h
    cases h
    exact ⟨fits, rfl⟩
  · rw [load_of_gt (Nat.lt_of_not_le fits)] at h
    cases h

/-- Settles O15: the resets give the power-on values of `pc` and the slots, `Load` stores within the 4096 bytes, a tick
and a change of keys write neither memory nor `pc` nor the slots. -/
theorem hostEventsKeepInvariant : Obligations.HostEventsKeepInvariant := by
  intro e s t inv h
  cases e with
  | powerOn =>
    cases h
    exact powerOnStateMeetsInvariant.congr rfl rfl rfl
  | load image =>
    obtain ⟨fits, rfl⟩ := load_cases h
    exact ⟨wf_writeBytes image (by omega) inv.memory, inv.counter, inv.stack⟩
  | reset =>
    cases h
    exact ⟨inv.memory, powerOnStateMeetsInvariant.counter, powerOnStateMeetsInvariant.stack⟩
  | step => exact stepKeepsInvariant s t inv h
  | timerTick | setKeys =>
    cases h
    exact inv.congr rfl rfl rfl

end Sys2Proof.Machine
end

section
/-!
PROOF. What no instruction sees: the sound timer (R29, R187), and the stack slots at and above `sp` (R27, D28). Two
machines that differ only there fetch alike, latch alike, and their effects differ only there.
-/

namespace Sys2Proof.Machine

/-- A state that agrees on the latch, `pc` and memory takes the `Step` of the same instruction. -/
theorem step_of_same_fetch {s u : State} {op : Word} {i : Instr} (hf : s.fault = none) (hw : fetch s = some op)
    (hd : decodeWord op = some i) (fault : u.fault = s.fault) (pc : u.pc = s.pc) (mem : u.mem = s.mem) :
    step u = .next (latchOr (faultOf i u) (effectOf i u) u) := by
  have same : fetch u = some op := by
    rw [← hw]
    simp [fetch, pc, mem]
  rw [step_of_fetch (fault.trans hf) same, execWord_of_decodeWord hd, exec_eq]

/-! ## The sound timer -/

theorem faultOf_withSound (i : Instr) (s : State) (q : Byte) : faultOf i { s with st := q } = faultOf i s := by
  cases i <;> rfl

theorem effectOf_withSound {i : Instr} (h : .sound ∉ writesOf i) (s : State) (q : Byte) :
    effectOf i { s with st := q } = { effectOf i s with st := q } := by
  cases i with
  | ldStVx => simp [writesOf] at h
  | ret | call =>
    simp only [effectOf]
    split <;> rfl
  | ldVxK =>
    simp only [effectOf, show lowestKey { s with st := q } = lowestKey s from rfl]
    cases lowestKey s <;> rfl
  | _ => rfl

theorem sound_mem_writesOf {i : Instr} : .sound ∈ writesOf i ↔ ∃ x, i = .ldStVx x := by
  cases i <;> simp [writesOf]

theorem faultOf_of_sound {i : Instr} (h : .sound ∈ writesOf i) (s : State) : faultOf i s = none := by
  obtain ⟨x, rfl⟩ := sound_mem_writesOf.1 h
  rfl

/-- Settles O16: by the four answers of a `Step`; an instruction latches the same fault, an Fx18 writes the same `ST` in
both machines, and every other effect keeps each machine's own. -/
theorem soundTimerIsUnobservable : Obligations.SoundTimerIsUnobservable := by
  intro s t q hs
  rcases step_cases s with ⟨latched, e⟩ | ⟨hf, hpc, e⟩ | ⟨hf, op, i, hw, hd, e⟩ | ⟨hf, op, hw, hd, e⟩
  · cases e.symm.trans hs
    exact ⟨_, step_of_fault latched, rfl, fun h => absurd h.2 latched, fun _ => ⟨rfl, rfl⟩⟩
  · cases e.symm.trans hs
    refine ⟨_, step_of_fetch_range hf hpc, rfl, ?_, fun _ => ⟨rfl, rfl⟩⟩
    rintro ⟨⟨_, _, hw, _⟩, _⟩
    exact absurd hw.1 (Nat.not_le.2 hpc)
  · have at_pc : InstrAtPc s i := ⟨op, wordAtPc_iff.2 hw, hd⟩
    have writes : (∃ x, InstrAtPc s (.ldStVx x)) ↔ .sound ∈ writesOf i := by
      simp only [instrAtPc_unique at_pc, sound_mem_writesOf, eq_comm]
    refine ⟨_, step_of_same_fetch hf hw hd rfl rfl rfl, ?_⟩
    rw [writes, faultOf_withSound]
    rcases exec_cases (e.symm.trans hs) with ⟨f, hfault, rfl⟩ | ⟨hfault, rfl⟩
    · rw [hfault]
      refine ⟨rfl, fun h => ?_, fun _ => ⟨rfl, rfl⟩⟩
      exact absurd (hfault.symm.trans (faultOf_of_sound h.1 s)) (Option.some_ne_none f)
    · rw [hfault]
      by_cases hsound : .sound ∈ writesOf i
      · obtain ⟨x, rfl⟩ := sound_mem_writesOf.1 hsound
        exact ⟨rfl, fun _ => rfl, fun h => absurd ⟨hsound, hf⟩ h⟩
      · have kept : (effectOf i s).st = s.st := onlyChanges_effectOf i s .sound hsound
        rw [latchOr, Option.elim_none, effectOf_withSound hsound s q]
        exact ⟨rfl, fun h => absurd h.1 hsound, fun _ => ⟨kept, rfl⟩⟩
  · cases e.symm.trans hs
    refine ⟨_, step_of_unknown hf (wordAtPc_iff.2 hw) hd, rfl, ?_, fun _ => ⟨rfl, rfl⟩⟩
    rintro ⟨⟨_, _, hw', hd'⟩, _⟩
    cases hw.symm.trans (wordAtPc_iff.1 hw')
    cases hd.symm.trans hd'

/-! ## The stack slots at and above `sp` -/

/-- Two stacks agree on the slots below `n`. -/
def AgreeBelow (n : Nat) (slots slots' : Vector Word 16) : Prop := ∀ k : Fin 16, k.val < n → slots'[k] = slots[k]

theorem faultOf_withStack (i : Instr) (s : State) (slots : Vector Word 16) :
    faultOf i { s with stack := slots } = faultOf i s := by
  cases i <;> rfl

theorem effectOf_withStack {i : Instr} (h : .stack ∉ writesOf i) (s : State) (slots : Vector Word 16) :
    effectOf i { s with stack := slots } = { effectOf i s with stack := slots } := by
  cases i with
  | ret | call => simp [writesOf] at h
  | ldVxK =>
    simp only [effectOf, show lowestKey { s with stack := slots } = lowestKey s from rfl]
    cases lowestKey s <;> rfl
  | _ => rfl

/-- A call pushes the same address onto both stacks, a return reads a slot below `sp`, and nothing else looks at the
stack: the effects differ at most in the slots at and above the new `sp` (D28). -/
theorem effectOf_agreeBelow (i : Instr) (s : State) {slots : Vector Word 16}
    (h : AgreeBelow s.sp.val s.stack slots) :
    effectOf i { s with stack := slots } =
        { effectOf i s with stack := (effectOf i { s with stack := slots }).stack } ∧
      AgreeBelow (effectOf i s).sp.val (effectOf i s).stack (effectOf i { s with stack := slots }).stack := by
  by_cases hstack : .stack ∈ writesOf i
  · cases i with
    | ret =>
      by_cases held : 0 < s.sp.val
      · have top : s.sp.val - 1 < s.sp.val := Nat.sub_lt held Nat.one_pos
        have read : slots[s.sp.val - 1]'(by omega) = s.stack[s.sp.val - 1]'(by omega) :=
          h ⟨s.sp.val - 1, by omega⟩ top
        simp only [effectOf, held, dite_true]
        refine ⟨?_, fun k hk => h k (hk.trans top)⟩
        simp [pop, setPc, read]
      · simpa [effectOf, held] using h
    | call nnn =>
      by_cases room : s.sp.val < 16
      · simp only [effectOf, room, dite_true]
        refine ⟨rfl, fun k hk => ?_⟩
        simp only [setPc_stack, push_stack, Fin.getElem_fin, Vector.getElem_set]
        split
        · rfl
        · next other => exact h k (lt_of_le_of_ne (Nat.le_of_lt_succ hk) (Ne.symm other))
      · simpa [effectOf, room] using h
    | _ => simp [writesOf] at hstack
  · obtain ⟨sp, stack⟩ := onlyChanges_effectOf i s .stack hstack
    rw [effectOf_withStack hstack, sp, stack]
    exact ⟨rfl, h⟩

/-- Settles O17: by the four answers of a `Step`; an instruction latches the same fault, and its effects agree below the
new `sp`. -/
theorem staleStackSlotsAreUnobservable : Obligations.StaleStackSlotsAreUnobservable := by
  intro s t u hu agree hs
  generalize u.stack = slots at hu agree
  subst hu
  rcases step_cases s with ⟨latched, e⟩ | ⟨hf, hpc, e⟩ | ⟨hf, op, i, hw, hd, e⟩ | ⟨hf, op, hw, hd, e⟩
  · cases e.symm.trans hs
    exact ⟨_, step_of_fault latched, rfl, agree⟩
  · cases e.symm.trans hs
    exact ⟨_, step_of_fetch_range hf hpc, rfl, agree⟩
  · refine ⟨_, step_of_same_fetch hf hw hd rfl rfl rfl, ?_⟩
    rw [faultOf_withStack]
    rcases exec_cases (e.symm.trans hs) with ⟨f, hfault, rfl⟩ | ⟨hfault, rfl⟩ <;> rw [hfault]
    · exact ⟨rfl, agree⟩
    · exact effectOf_agreeBelow i s agree
  · cases e.symm.trans hs
    exact ⟨_, step_of_unknown hf (wordAtPc_iff.2 hw) hd, rfl, agree⟩

end Sys2Proof.Machine
end

section
/-!
PROOF. Control transfer and the skips on registers (40_control_flow.md, 41_skips.md).
-/

namespace Sys2Proof.Machine

/-- Settles O18: `pop` gives the slot below `sp`, and the frame is that of the effect. -/
theorem returnGoesPastTheStoredAddress : Obligations.ReturnGoesPastTheStoredAddress := by
  intro s held
  have noFault : faultOf .ret s = none := by simp [faultOf, held.ne']
  refine ⟨_, exec_of_no_fault noFault, ?_, effectOf_ret_stack s, fun k hk => ?_, onlyChanges_effectOf .ret s⟩
  · simp only [effectOf, held, dite_true]
    exact Nat.sub_add_cancel held
  · have slot : s.sp.val - 1 = k.val := by omega
    simp [effectOf_ret_pc held (by omega), slot]

/-- Settles O19: the instruction is one write of `pc`; the fault after 0xFFF is the fetch range of the next `Step`. -/
theorem jumpGoesToTarget : Obligations.JumpGoesToTarget := by
  intro s nnn
  refine ⟨decodeWord_encode (.jp nnn), setPc (extend nnn) s, rfl, toNat_extend nnn, onlyChanges_effectOf (.jp nnn) s,
    fun here => ?_, fun top noFault => ?_⟩
  · have : extend nnn = s.pc := BitVec.eq_of_toNat_eq ((toNat_extend nnn).trans here)
    rw [setPc, this]
  · subst top
    exact step_of_fetch_range noFault (by rw [setPc_pc]; decide)

theorem effectOf_call_stack {s : State} (room : s.sp.val < 16) (nnn : Imm12) (k : Fin 16) :
    (effectOf (.call nnn) s).stack[k] = if k.val = s.sp.val then s.pc else s.stack[k] := by
  simp [effectOf, room, Vector.getElem_set, eq_comm]

theorem effectOf_call_sp {s : State} (room : s.sp.val < 16) (nnn : Imm12) :
    (effectOf (.call nnn) s).sp.val = s.sp.val + 1 := by
  simp [effectOf, room]

theorem effectOf_call_pc {s : State} (room : s.sp.val < 16) (nnn : Imm12) :
    (effectOf (.call nnn) s).pc = extend nnn := by
  simp [effectOf, room]

theorem exec_call_of_room {s : State} (room : s.sp.val < 16) (nnn : Imm12) :
    exec (.call nnn) s = .next (effectOf (.call nnn) s) :=
  exec_of_no_fault (by simp [faultOf, room.ne])

/-- Settles O20: `push` writes the slot at `sp`, and the frame is that of the effect. -/
theorem callPushesItsOwnAddress : Obligations.CallPushesItsOwnAddress := by
  intro s nnn room
  refine ⟨_, exec_call_of_room room nnn, ?_, effectOf_call_sp room nnn, effectOf_call_stack room nnn,
    onlyChanges_effectOf (.call nnn) s⟩
  rw [effectOf_call_pc room, toNat_extend]

/-- Settles O21: at the limits the fault of the table is the one latched. -/
theorem stackLimitsFault : Obligations.StackLimitsFault := by
  intro s nnn
  refine ⟨fun full => exec_of_fault ?_, fun empty => exec_of_fault ?_⟩
  · simp [faultOf, full]
  · simp [faultOf, empty]

/-! ## Nested calls (S6) -/

theorem execAll_append {before after : List Instr} {s t : State} (h : execAll before s = .next t) :
    execAll (before ++ after) s = execAll after t := by
  induction before generalizing s with
  | nil =>
    cases h
    rfl
  | cons i rest ih =>
    simp only [List.cons_append, execAll, exec_eq] at h ⊢
    exact ih h

theorem execAll_singleton (i : Instr) (s : State) : execAll [i] s = exec i s := by
  simp only [execAll]
  rw [exec_eq]

/-- The calls of `targets`, then as many returns. -/
def nestedCalls (targets : List Imm12) : List Instr :=
  targets.map Instr.call ++ List.replicate targets.length .ret

theorem nestedCalls_cons (target : Imm12) (rest : List Imm12) :
    nestedCalls (target :: rest) = .call target :: (nestedCalls rest ++ [.ret]) := by
  simp [nestedCalls, List.replicate_succ']

/-- Nested calls that have returned: `sp`, the slots below it and every part but the stack are as before. -/
structure Returned (s t : State) : Prop where
  sp : t.sp = s.sp
  slots : ∀ k : Fin 16, k.val < s.sp.val → t.stack[k] = s.stack[k]
  frame : OnlyChanges [.stack] s t

/-- The calls nested inside a call keep its slot, so its own return finds the address it pushed. -/
theorem execAll_nestedCalls (targets : List Imm12) (s : State) (room : s.sp.val + targets.length ≤ 16) :
    ∃ t, execAll (nestedCalls targets) s = .next t ∧ Returned s t ∧ (targets ≠ [] → t.pc = s.pc + 2#16) := by
  induction targets generalizing s with
  | nil => exact ⟨s, rfl, ⟨rfl, fun _ _ => rfl, onlyChanges_refl _ s⟩, fun h => absurd rfl h⟩
  | cons target rest ih =>
    rw [List.length_cons] at room
    have here : s.sp.val < 16 := by omega
    have callSp := effectOf_call_sp here target
    obtain ⟨u, inner, ⟨usp, uslots, uframe⟩, _⟩ := ih (effectOf (.call target) s) (by rw [callSp]; omega)
    have held : u.sp.val = s.sp.val + 1 := by rw [usp, callSp]
    obtain ⟨t, ret, tsp, tstack, tpc, tframe⟩ := returnGoesPastTheStoredAddress u (by omega)
    refine ⟨t, ?_, ⟨Fin.ext (by omega), fun k hk => ?_, ?_⟩, fun _ => ?_⟩
    · rw [nestedCalls_cons]
      simp only [execAll, exec_call_of_room here]
      rw [execAll_append inner, execAll_singleton, ret]
    · rw [tstack, uslots k (by rw [callSp]; omega), effectOf_call_stack here, if_neg hk.ne]
    · exact onlyChanges_trans (onlyChanges_trans (onlyChanges_effectOf (.call target) s) uframe) tframe
    · rw [tpc ⟨s.sp.val, here⟩ held.symm, uslots ⟨s.sp.val, here⟩ (by rw [callSp]; exact Nat.lt_succ_self _),
        effectOf_call_stack here, if_pos rfl]

/-- Settles O22: by induction on the calls, each of which encloses those after it. -/
theorem nestedCallsReturnPastTheFirst : Obligations.NestedCallsReturnPastTheFirst := by
  intro s targets nonempty room
  obtain ⟨t, run, ⟨sp, slots, frame⟩, pc⟩ := execAll_nestedCalls targets s room
  exact ⟨t, run, pc nonempty, sp, frame, slots⟩

/-- Settles O23: a 12-bit number and a byte add up below 65536, so the sum is not reduced. -/
theorem indexedJumpAddsRegisterZero : Obligations.IndexedJumpAddsRegisterZero := by
  intro s nnn
  refine ⟨_, exec_of_no_fault rfl, ?_, onlyChanges_effectOf (.jpV0 nnn) s⟩
  have := toNat_extend nnn
  simp only [effectOf, setPc_pc]
  bv_omega

/-- Settles O25: each instruction is a `skipIf` on the comparison of the two registers. -/
theorem registerSkips : Obligations.RegisterSkips := by
  intro s x y
  refine ⟨⟨_, rfl, onlyChanges_skipIf _ s, ?_, ?_⟩, ⟨_, rfl, onlyChanges_skipIf _ s, ?_, ?_⟩⟩
  · rintro rfl
    simp
  · simp
  · rintro rfl
    simp
  · by_cases equal : readReg s x = readReg s y <;> simp [equal]

end Sys2Proof.Machine
end

section
/-!
PROOF. The 8-bit ALU and the index register (42_load_alu.md, 43_index_memory.md section 1): what each shape of register
write leaves, then the value of each instruction as a number.
-/

namespace Sys2Proof.Machine

/-- Settles O27: the instruction is a `writeResult` of the sum of two bytes. -/
theorem addImmediateWrapsWithoutFlag : Obligations.AddImmediateWrapsWithoutFlag := by
  intro s x nn
  obtain ⟨t, e, value, rest⟩ := writeResult_spec x (readReg s x + nn) s
  exact ⟨t, e, by rw [value, BitVec.toNat_add], rest⟩

/-- Settles O28: each instruction is a `writeResult`, and each bit of the result is that of the old operands' bits. -/
theorem bitwiseOperations : Obligations.BitwiseOperations := by
  intro s x y
  refine ⟨?_, ?_, ?_⟩
  · obtain ⟨t, e, value, kept, frame, pc⟩ := writeResult_spec x (readReg s x ||| readReg s y) s
    exact ⟨t, e, kept, frame, pc, fun k => by rw [value, BitVec.getLsbD_or]⟩
  · obtain ⟨t, e, value, kept, frame, pc⟩ := writeResult_spec x (readReg s x &&& readReg s y) s
    exact ⟨t, e, kept, frame, pc, fun k => by rw [value, BitVec.getLsbD_and]⟩
  · obtain ⟨t, e, value, kept, frame, pc⟩ := writeResult_spec x (readReg s x ^^^ readReg s y) s
    exact ⟨t, e, kept, frame, pc, fun k => by rw [value, BitVec.getLsbD_xor]⟩

/-- What a result and then a flag leave: at `x = 0xF` the flag stands (R13, D2). -/
theorem writeResultThenFlag_spec (x : Nibble) (result flag : Byte) (s : State) :
    ∃ t, writeResultThenFlag x result flag s = .next t ∧ (x ≠ 0xF#4 → readReg t x = result) ∧ readReg t 0xF#4 = flag ∧
      RegistersKeptBut [x, 0xF#4] s t ∧ OnlyChanges [.registers] s t ∧ t.pc = s.pc + 2#16 := by
  refine ⟨_, rfl, fun hx => ?_, readReg_setReg_same _ _ _, fun r hr => ?_, ?_, rfl⟩
  · rw [readReg_advance, readReg_setFlag, if_neg hx, readReg_setReg_same]
  · simp only [List.mem_cons, List.not_mem_nil, or_false, not_or] at hr
    rw [readReg_advance, readReg_setFlag, if_neg hr.2, readReg_setReg_other hr.1]
  · apply onlyChanges_of_fields <;> simp

/-- What a flag and then a result leave: at `x = 0xF` the result stands (R13, D2). -/
theorem writeFlagThenResult_spec (x : Nibble) (flag result : Byte) (s : State) :
    ∃ t, writeFlagThenResult x flag result s = .next t ∧ readReg t x = result ∧ (x ≠ 0xF#4 → readReg t 0xF#4 = flag) ∧
      RegistersKeptBut [x, 0xF#4] s t ∧ OnlyChanges [.registers] s t ∧ t.pc = s.pc + 2#16 := by
  refine ⟨_, rfl, readReg_setReg_same _ _ _, fun hx => ?_, fun r hr => ?_, ?_, rfl⟩
  · rw [readReg_advance, readReg_setReg_other hx.symm, readReg_setFlag, if_pos rfl]
  · simp only [List.mem_cons, List.not_mem_nil, or_false, not_or] at hr
    rw [readReg_advance, readReg_setReg_other hr.1, readReg_setFlag, if_neg hr.2]
  · apply onlyChanges_of_fields <;> simp

/-- Settles O29: the result is the sum of two bytes, the flag their carry, in that order. -/
theorem addSetsCarryFlag : Obligations.AddSetsCarryFlag := by
  intro s x y
  obtain ⟨t, e, result, flag, rest⟩ := writeResultThenFlag_spec x (readReg s x + readReg s y)
    (carryFlag (readReg s x) (readReg s y)) s
  exact ⟨decodeWord_encode (.addReg x y), t, e, fun hx => by rw [result hx, BitVec.toNat_add],
    by rw [flag, toNat_carryFlag], rest⟩

/-- The difference of two bytes as a number (R127, R129). -/
theorem toNat_sub_byte (a b : Byte) : (a - b).toNat = (a.toNat + 256 - b.toNat) % 256 := by
  rw [BitVec.toNat_sub]
  omega

/-- Settles O30: the result is the difference of the old operands, the flag their no-borrow, in that order. -/
theorem subtractSetsNoBorrowFlag : Obligations.SubtractSetsNoBorrowFlag := by
  intro s x y
  refine ⟨⟨decodeWord_encode (.subReg x y), ?_⟩, decodeWord_encode (.subnReg x y), ?_⟩
  · obtain ⟨t, e, result, flag, rest⟩ := writeResultThenFlag_spec x (readReg s x - readReg s y)
      (noBorrowFlag (readReg s x) (readReg s y)) s
    exact ⟨t, e, fun hx => by rw [result hx, toNat_sub_byte], by rw [flag, toNat_noBorrowFlag], rest⟩
  · obtain ⟨t, e, result, flag, rest⟩ := writeResultThenFlag_spec x (readReg s y - readReg s x)
      (noBorrowFlag (readReg s y) (readReg s x)) s
    exact ⟨t, e, fun hx => by rw [result hx, toNat_sub_byte], by rw [flag, toNat_noBorrowFlag], rest⟩

/-- Settles O31: the flag is the bit shifted out of the old `V[x]`, the result its shift, in that order. -/
theorem shiftsSetShiftedOutFlag : Obligations.ShiftsSetShiftedOutFlag := by
  intro s x y
  constructor
  · obtain ⟨t, e, result, flag, rest⟩ := writeFlagThenResult_spec x (lowBitFlag (readReg s x)) (readReg s x >>> 1) s
    exact ⟨t, e, by rw [result, BitVec.toNat_ushiftRight, Nat.shiftRight_eq_div_pow, pow_one],
      fun hx => by rw [flag hx, toNat_lowBitFlag], rest⟩
  · obtain ⟨t, e, result, flag, rest⟩ := writeFlagThenResult_spec x (highBitFlag (readReg s x)) (readReg s x <<< 1) s
    exact ⟨t, e, by rw [result, BitVec.toNat_shiftLeft, Nat.shiftLeft_eq, pow_one],
      fun hx => by rw [flag hx, toNat_highBitFlag], rest⟩

/-- Settles O32: the instruction is a `writeResult` of the masked byte, once the draw is counted. -/
theorem randomByteIsMasked : Obligations.RandomByteIsMasked := by
  intro s x nn
  obtain ⟨t, e, value, kept, -, pc⟩ :=
    writeResult_spec x (Config.randomByte s.draws &&& nn) { s with draws := s.draws + 1 }
  cases e
  refine ⟨decodeWord_encode (.rnd x nn), _, rfl, fun k outside => ?_, fun k inside => ?_, rfl, kept,
    onlyChanges_effectOf (.rnd x nn) s, pc⟩
  · rw [value, BitVec.getLsbD_and, outside, Bool.and_false]
  · rw [value, BitVec.getLsbD_and, inside, Bool.and_true]

/-- Settles O34: `I` takes the low 16 bits of the sum, the flag is computed from the whole of it. -/
theorem addToIndexSetsRangeFlag : Obligations.AddToIndexSetsRangeFlag := by
  intro s x
  refine ⟨_, exec_addI x s, BitVec.toNat_ofNat _ 16, ?_, fun r hr => ?_, onlyChanges_effectOf (.addI x) s, rfl⟩
  · rw [readReg_advance, readReg_setFlag, if_pos rfl, toNat_rangeFlag]
  · rw [readReg_advance, readReg_setFlag, if_neg (List.ne_of_not_mem_cons hr), readReg_setIndex]

/-- Settles O35: five times a byte is below 65536, so nothing is lost. -/
theorem glyphAddressIsFiveTimesRegister : Obligations.GlyphAddressIsFiveTimesRegister := by
  intro s x
  refine ⟨_, exec_ldF x s, ?_, onlyChanges_advance_setIndex _ s, rfl⟩
  have := (readReg s x).isLt
  exact Nat.mod_eq_of_lt (by omega)

end Sys2Proof.Machine
end

section
/-!
PROOF. Memory transfers (43_index_memory.md sections 2 and 3): within memory the bytes go where the rule says and no
other byte differs, above 0xFFF nothing is touched, and a store is seen by the next fetch.
-/

namespace Sys2Proof.Machine

/-- A store within memory: every byte of it at its place, no other byte written, memory canonical (R56, R60). -/
theorem readByte_of_store {m : Memory} {base : Nat} {bytes : List Byte} (wf : Memory.wf m = true)
    (room : base + bytes.length ≤ 4096) {k : Nat} (hk : k < bytes.length) :
    readByte (writeBytes m base bytes) (base + k) = bytes.getD k 0 := by
  rw [readByte_writeBytes bytes room wf, if_pos (by omega), Nat.add_sub_cancel_left]

theorem memoryKeptOutside_of_store {s t : State} {base : Nat} {bytes : List Byte} (wf : Memory.wf s.mem = true)
    (room : base + bytes.length ≤ 4096) (stored : t.mem = writeBytes s.mem base bytes) :
    MemoryKeptOutside base bytes.length s t := by
  intro a ha
  rw [stored, readByte_writeBytes bytes room wf, if_neg (by omega)]

theorem faultOf_ldB_of_room {s : State} (room : baseAddress s + 2 ≤ 0xFFF) (x : Nibble) : faultOf (.ldB x) s = none :=
  rangeFault_eq_none.2 (.inr (by omega))

theorem faultOf_storeRegs_of_room {s : State} {x : Nibble} (room : baseAddress s + x.toNat ≤ 0xFFF) :
    faultOf (.storeRegs x) s = none :=
  rangeFault_eq_none.2 (.inr (by omega))

/-! The digits as numbers (R143). -/

theorem toNat_hundreds (a : Byte) : ((decimalDigits a).getD 0 0).toNat = a.toNat / 100 := by
  simp [decimalDigits]

theorem toNat_tens (a : Byte) : ((decimalDigits a).getD 1 0).toNat = a.toNat / 10 % 10 := by
  simp [decimalDigits]

theorem toNat_units (a : Byte) : ((decimalDigits a).getD 2 0).toNat = a.toNat % 10 := by
  simp [decimalDigits]

/-- Settles O36: the three digits are a store within memory. -/
theorem storeDecimalDigits : Obligations.StoreDecimalDigits := by
  intro s x wf room
  have fits : baseAddress s + (decimalDigits (readReg s x)).length ≤ 4096 := by
    rw [length_decimalDigits]
    omega
  have noFault := faultOf_ldB_of_room room x
  have digit {k : Nat} (hk : k < 3) := readByte_of_store wf fits hk
  refine ⟨_, exec_of_no_fault noFault, ?_, ?_, ?_, memoryKeptOutside_of_store wf fits rfl, wf_effectOf noFault wf,
    onlyChanges_effectOf (.ldB x) s, rfl⟩
  · exact (congrArg BitVec.toNat (digit (k := 0) (by decide))).trans (toNat_hundreds _)
  · exact (congrArg BitVec.toNat (digit (k := 1) (by decide))).trans (toNat_tens _)
  · exact (congrArg BitVec.toNat (digit (k := 2) (by decide))).trans (toNat_units _)

theorem readByte_effectOf_storeRegs {s : State} {x k : Nibble} (wf : Memory.wf s.mem = true)
    (room : baseAddress s + x.toNat ≤ 0xFFF) (hk : k.toNat ≤ x.toNat) :
    readByte (effectOf (.storeRegs x) s).mem (baseAddress s + k.toNat) = readReg s k := by
  have len := length_firstRegisters x s
  exact (readByte_of_store wf (by omega) (by omega)).trans (getD_firstRegisters s 0 hk)

/-- Settles O37: the registers are a store within memory. -/
theorem storeRegistersAtIndex : Obligations.StoreRegistersAtIndex := by
  intro s x wf room
  have noFault := faultOf_storeRegs_of_room room
  have len := length_firstRegisters x s
  refine ⟨_, exec_of_no_fault noFault, fun k hk => readByte_effectOf_storeRegs wf room hk, ?_, wf_effectOf noFault wf,
    onlyChanges_effectOf (.storeRegs x) s, rfl⟩
  rw [← len]
  exact memoryKeptOutside_of_store wf (by omega) rfl

theorem readReg_effectOf_loadRegs {s : State} {x k : Nibble} (hk : k.toNat ≤ x.toNat) :
    readReg (effectOf (.loadRegs x) s) k = readByte s.mem (baseAddress s + k.toNat) := by
  rw [effectOf, readReg_advance, readReg_loadRegisters, getD_readBytes _ _ _ (Nat.lt_succ_of_le hk)]

theorem exec_loadRegs_of_room {s : State} {x : Nibble} (room : baseAddress s + x.toNat ≤ 0xFFF) :
    exec (.loadRegs x) s = .next (effectOf (.loadRegs x) s) :=
  exec_of_no_fault (rangeFault_eq_none.2 (.inr (by omega)))

/-- Settles O38: each register up to `x` has a byte of the transfer, the others are not written. -/
theorem loadRegistersFromIndex : Obligations.LoadRegistersFromIndex := by
  intro s x room
  exact ⟨_, exec_loadRegs_of_room room, fun k hk => readReg_effectOf_loadRegs hk,
    fun k hk => readReg_effectOf (i := .loadRegs x) (Nat.not_le.2 hk) s, onlyChanges_effectOf (.loadRegs x) s,
    by simp [effectOf]⟩

/-- Settles O39: Fx65 reads each byte where Fx55 put it, since both go from the same `I`. -/
theorem storeThenLoadRestoresRegisters : Obligations.StoreThenLoadRestoresRegisters := by
  intro s t u x wf room store mem index
  rw [exec_of_no_fault (faultOf_storeRegs_of_room room)] at store
  cases store
  have base : baseAddress u = baseAddress s := congrArg BitVec.toNat index
  refine ⟨_, exec_loadRegs_of_room (by rw [base]; exact room), fun k hk => ?_⟩
  rw [readReg_effectOf_loadRegs hk, base, mem, readByte_effectOf_storeRegs wf room hk]

/-- The fault of a transfer that reaches above 0xFFF names its highest address (R59, R172). -/
theorem rangeFault_eq_some {base count : Nat} (h : 0 < count) (above : base + (count - 1) > 0xFFF) :
    rangeFault base count = some (.memRange, base + (count - 1)) :=
  if_pos ⟨h.ne', above⟩

/-- Settles O40: each transfer and draw latches its range fault. -/
theorem transfersBeyondMemoryFault : Obligations.TransfersBeyondMemoryFault := by
  intro s x y n
  refine ⟨fun above => exec_of_fault ?_, fun above => ⟨exec_of_fault ?_, exec_of_fault ?_⟩,
    fun nonzero above => exec_of_fault ?_⟩
  · exact rangeFault_eq_some (by decide) above
  · exact rangeFault_eq_some (Nat.succ_pos _) above
  · exact rangeFault_eq_some (Nat.succ_pos _) above
  · have rows : 0 < n.toNat := by bv_omega
    have highest : s.i.toNat + n.toNat - 1 = s.i.toNat + (n.toNat - 1) := by omega
    rw [highest]
    exact rangeFault_eq_some rows (by unfold baseAddress; omega)

/-! ## The next fetch -/

theorem readByte_writeBytes_eq_byteAfterStore {s : State} {base : Nat} {bytes : List Byte} (wf : Memory.wf s.mem = true)
    (room : base + bytes.length ≤ 4096) (a : Nat) :
    readByte (writeBytes s.mem base bytes) a = byteAfterStore s base bytes a := by
  rw [readByte_writeBytes bytes room wf, byteAfterStore]
  by_cases above : base ≤ a
  · by_cases below : a < base + bytes.length
    · rw [if_pos ⟨above, below⟩, if_pos above]
      have inside : a - base < bytes.length := by omega
      simp [List.getD, inside]
    · have outside : bytes.length ≤ a - base := by omega
      rw [if_neg (fun h => below h.2), if_pos above]
      simp [List.getD, outside]
  · rw [if_neg (fun h => above h.1), if_neg above]

/-- After a store at `I` and the advance, the next `Step` runs the word the stored bytes spell. -/
theorem step_after_store {s : State} {bytes : List Byte} (wf : Memory.wf s.mem = true) (hf : s.fault = none)
    (hpc : s.pc.toNat + 4 ≤ 4096) (room : baseAddress s + bytes.length ≤ 4096) :
    step (advance { s with mem := writeBytes s.mem (baseAddress s) bytes }) =
      execWord (wordOfBytes (byteAfterStore s (baseAddress s) bytes (s.pc.toNat + 2))
        (byteAfterStore s (baseAddress s) bytes (s.pc.toNat + 3)))
        (advance { s with mem := writeBytes s.mem (baseAddress s) bytes }) := by
  have next : (s.pc + 2#16).toNat = s.pc.toNat + 2 := toNat_add_two (by omega)
  refine step_of_fetch hf (fetch_eq_some.2 ⟨?_, ?_⟩)
  · rw [advance_pc, next]
    omega
  · rw [advance_pc, advance_mem, next, readByte_writeBytes_eq_byteAfterStore wf room,
      readByte_writeBytes_eq_byteAfterStore wf room]
    rfl

/-- Settles O41: both instructions are one store and the advance. -/
theorem storeIsSeenByNextFetch : Obligations.StoreIsSeenByNextFetch := by
  intro s x i bytes which wf hf hw hpc room
  have store : exec i s = .next (advance { s with mem := writeBytes s.mem (baseAddress s) bytes }) := by
    rcases which with ⟨rfl, rfl⟩ | ⟨rfl, rfl⟩
    · exact storeAtIndex_pass room
    · exact storeAtIndex_pass room
  refine ⟨_, ?_, rfl, step_after_store wf hf hpc room⟩
  rw [stepRunsDecodedInstruction s _ i hf hw (decodeWord_encode i), store]

end Sys2Proof.Machine
end

section
/-!
PROOF. The framebuffer instructions (44_display.md): a draw toggles the cells under the sprite's 1 bits, and a second one
toggles the same cells back.
-/

namespace Sys2Proof.Machine

/-- Settles O42: the screen written is the blank one. -/
theorem clearTurnsEveryCellOff : Obligations.ClearTurnsEveryCellOff := fun s =>
  ⟨_, exec_cls s, Framebuffer.cell_blank, onlyChanges_effectOf .cls s, rfl⟩

/-- The rows read from memory land where the sprite covers: one names a cell by its wrapped coordinates, the other by
their numbers. -/
theorem rowsLand_readBytes {mem : Memory} {base sx sy n : Nat} {cx : Fin 64} {cy : Fin 32} :
    RowsLand sx sy 0 (readBytes mem base n) cx cy ↔ SpriteCovers mem base sx sy n cx cy := by
  unfold RowsLand SpriteCovers
  rw [length_readBytes]
  refine exists_congr fun row => and_congr_right fun hrow => exists_congr fun c => and_congr_right fun _ => ?_
  rw [BitLands, getD_readBytes _ _ _ hrow, Nat.zero_add, Fin.ext_iff, Fin.ext_iff, val_wrapColumn, val_wrapRow]

theorem rowsCollide_iff {fb : Framebuffer} {sx sy : Nat} {bytes : List Byte} :
    RowsCollide fb sx sy 0 bytes ↔ ∃ cx cy, RowsLand sx sy 0 bytes cx cy ∧ Framebuffer.cell fb cx cy = true := by
  constructor
  · rintro ⟨r, hr, k, hk, bit, lit⟩
    exact ⟨_, _, ⟨r, hr, k, hk, bit, rfl, rfl⟩, lit⟩
  · rintro ⟨_, _, ⟨r, hr, k, hk, bit, rfl, rfl⟩, lit⟩
    exact ⟨r, hr, k, hk, bit, lit⟩

/-- The cells under the sprite of a Dxyn in the state `s` (R151). -/
def Covers (s : State) (x y n : Nibble) (cx : Fin 64) (cy : Fin 32) : Prop :=
  SpriteCovers s.mem (baseAddress s) (readReg s x).toNat (readReg s y).toNat n.toNat cx cy

/-- A covered cell is toggled, every other keeps its value, and `VF` says whether a covered cell was lit (R151). -/
structure Drawn (s : State) (x y n : Nibble) (t : State) : Prop where
  toggled : ∀ cx cy, Covers s x y n cx cy → Framebuffer.cell t.fb cx cy = !Framebuffer.cell s.fb cx cy
  kept : ∀ cx cy, ¬Covers s x y n cx cy → Framebuffer.cell t.fb cx cy = Framebuffer.cell s.fb cx cy
  flag : readReg t 0xF#4 = 0x01#8 ↔ ∃ cx cy, Covers s x y n cx cy ∧ Framebuffer.cell s.fb cx cy = true
  flagBit : readReg t 0xF#4 = 0x01#8 ∨ readReg t 0xF#4 = 0x00#8

theorem exec_drw_of_room {s : State} {n : Nibble} (room : n = 0x0#4 ∨ baseAddress s + n.toNat ≤ 0x1000) (x y : Nibble) :
    exec (.drw x y n) s = .next (effectOf (.drw x y n) s) := by
  refine exec_of_no_fault (rangeFault_eq_none.2 ?_)
  rcases room with rfl | room
  · exact .inl rfl
  · exact .inr room

/-- The canvas of a Dxyn once its rows are drawn. -/
def drawnCanvas (s : State) (x y n : Nibble) : Canvas :=
  Canvas.drawRows (readReg s x).toNat (readReg s y).toNat 0 (readBytes s.mem (baseAddress s) n.toNat)
    { fb := s.fb, hit := false }

theorem effectOf_drw_fb (s : State) (x y n : Nibble) :
    (effectOf (.drw x y n) s).fb = (drawnCanvas s x y n).fb := rfl

theorem effectOf_drw_flag (s : State) (x y n : Nibble) :
    readReg (effectOf (.drw x y n) s) 0xF#4 = collisionFlag (drawnCanvas s x y n).hit :=
  readReg_setReg_same _ _ _

theorem collisionFlag_eq_one {hit : Bool} : collisionFlag hit = 0x01#8 ↔ hit = true := by
  cases hit <;> decide

theorem drawn_effectOf_drw (s : State) (x y n : Nibble) : Drawn s x y n (effectOf (.drw x y n) s) := by
  have few : (readBytes s.mem (baseAddress s) n.toNat).length < 32 := by
    rw [length_readBytes]
    omega
  refine ⟨fun cx cy covered => ?_, fun cx cy free => ?_, ?_, ?_⟩
  · rw [effectOf_drw_fb]
    exact Canvas.cell_drawRows_of_land _ _ cx cy _ 0 _ few (rowsLand_readBytes.2 covered)
  · rw [effectOf_drw_fb]
    exact Canvas.cell_drawRows_of_not_land _ _ cx cy _ 0 _ (fun h => free (rowsLand_readBytes.1 h))
  · rw [effectOf_drw_flag, collisionFlag_eq_one, drawnCanvas, Canvas.hit_drawRows _ _ _ 0 _ few, rowsCollide_iff]
    simp only [rowsLand_readBytes, Bool.false_eq_true, false_or]
    rfl
  · rw [effectOf_drw_flag]
    cases (drawnCanvas s x y n).hit
    · exact .inr rfl
    · exact .inl rfl

/-- Settles O43: by what the rows of the sprite do to the canvas. -/
theorem drawTogglesSpriteCells : Obligations.DrawTogglesSpriteCells := by
  intro s x y n room
  obtain ⟨toggled, kept, flag, flagBit⟩ := drawn_effectOf_drw s x y n
  exact ⟨_, exec_drw_of_room room x y, toggled, kept, flag.2, fun none_lit => flagBit.resolve_left (mt flag.1 none_lit),
    fun r hr => readReg_effectOf (i := .drw x y n) (List.ne_of_not_mem_cons hr) s, rfl,
    onlyChanges_effectOf (.drw x y n) s, rfl⟩

/-- Settles O44: the second draw covers the same cells, so what the first toggled is toggled back, and a covered cell lit
before the second draw is one that the first turned on. -/
theorem drawingTwiceRestoresTheScreen : Obligations.DrawingTwiceRestoresTheScreen := by
  intro s t u w x y n room first hu hx hy second
  cases (exec_drw_of_room room x y).symm.trans first
  have mem : u.mem = s.mem := by rw [hu, effectOf_mem (by simp [writesOf])]
  have index : u.i = s.i := by
    rw [hu]
    exact onlyChanges_effectOf (.drw x y n) s .index (by simp [writesOf])
  have base : baseAddress u = baseAddress s := congrArg BitVec.toNat index
  have screen : u.fb = (effectOf (.drw x y n) s).fb := by rw [hu]
  have same (cx cy) : Covers u x y n cx cy ↔ Covers s x y n cx cy := by
    rw [Covers, mem, base, hx, hy, Covers]
  cases (exec_drw_of_room (by rw [base]; exact room) x y).symm.trans second
  obtain ⟨toggled, kept, -, -⟩ := drawn_effectOf_drw s x y n
  obtain ⟨toggledBack, keptAgain, flag, -⟩ := drawn_effectOf_drw u x y n
  rw [screen] at toggledBack keptAgain flag
  simp only [same] at toggledBack keptAgain flag
  refine ⟨fun cx cy => ?_, ?_⟩
  · by_cases covered : Covers s x y n cx cy
    · rw [toggledBack cx cy covered, toggled cx cy covered, Bool.not_not]
    · rw [keptAgain cx cy covered, kept cx cy covered]
  · rw [flag]
    refine exists_congr fun cx => exists_congr fun cy => ?_
    by_cases covered : Covers s x y n cx cy
    · simp [covered, toggled cx cy covered]
    · simp [covered, kept cx cy covered]

end Sys2Proof.Machine
end

section
/-!
PROOF. The keypad and timer instructions (45_timers_keypad.md).
-/

namespace Sys2Proof.Machine

/-- A key test with a named key is the skip on that key (R160, R161). -/
theorem skipOnKey_of_named {s : State} {x : Nibble} {k : Fin 16} (named : (readReg s x).toNat = k.val) (wanted : Bool) :
    skipOnKey x wanted s = .next (skipIf (s.keys[k] == wanted) s) := by
  have key : namedKey s (readReg s x) = some s.keys[k] := by
    rw [namedKey, named]
    exact Vector.getElem?_eq_getElem k.isLt
  rw [skipOnKey, key]

theorem faultOf_of_keyRange {s : State} {x : Nibble} (above : (readReg s x).toNat > 15) :
    faultOf (.skp x) s = some (.keyRange, (readReg s x).toNat) ∧
      faultOf (.sknp x) s = some (.keyRange, (readReg s x).toNat) :=
  ⟨if_pos above, if_pos above⟩

/-- Settles O45: a named key decides the skip, a larger value is the fault of the table. -/
theorem keySkips : Obligations.KeySkips := by
  intro s x
  refine ⟨fun k named => ⟨⟨_, skipOnKey_of_named named true, onlyChanges_skipIf _ s, ?_⟩,
    ⟨_, skipOnKey_of_named named false, onlyChanges_skipIf _ s, ?_⟩⟩, fun above => ?_⟩
  · cases hk : s.keys[k] <;> simp
  · cases hk : s.keys[k] <;> simp
  · obtain ⟨skp, sknp⟩ := faultOf_of_keyRange above
    exact ⟨exec_of_fault skp, exec_of_fault sknp⟩

/-- The tone is on exactly while `ST` is not 0 (R187). -/
theorem tone_iff {s : State} : tone s = true ↔ s.st ≠ 0x00#8 := by
  rw [tone, decide_eq_true_iff, gt_iff_lt, Nat.pos_iff_ne_zero, ne_eq, ne_eq, not_iff_not]
  exact ⟨fun h => BitVec.eq_of_toNat_eq h, fun h => congrArg BitVec.toNat h⟩

/-- Settles O46: Fx07 is a `writeResult` of `DT`; the others write one timer. -/
theorem timerMoves : Obligations.TimerMoves := by
  intro s x
  exact ⟨⟨decodeWord_encode (.ldVxDt x), writeResult_spec x s.dt s⟩,
    ⟨decodeWord_encode (.ldDtVx x), _, exec_ldDtVx x s, rfl, onlyChanges_effectOf (.ldDtVx x) s, rfl⟩,
    ⟨decodeWord_encode (.ldStVx x), _, exec_ldStVx x s, rfl, tone_iff, onlyChanges_effectOf (.ldStVx x) s, rfl⟩⟩

/-- The lowest key down is found (R165). -/
theorem lowestKey_of_lowest {s : State} {k : Fin 16} (pressed : s.keys[k] = true)
    (lowest : ∀ j : Fin 16, j < k → s.keys[j] = false) : lowestKey s = some k := by
  cases found : lowestKey s with
  | none => exact absurd (lowestKey_eq_none.1 found k) (by simp [pressed])
  | some j =>
    obtain ⟨down, below⟩ := lowestKey_eq_some found
    rcases lt_trichotomy j k with hlt | rfl | hgt
    · exact absurd (lowest j hlt) (by simp [down])
    · rfl
    · exact absurd (below k hgt) (by simp [pressed])

/-- Settles O47: by whether a key is down; the number of a key is less than 16, so it fits a byte. -/
theorem keyWaitTakesLowestKey : Obligations.KeyWaitTakesLowestKey := by
  intro s x
  refine ⟨fun noKey => ?_, fun k pressed lowest => ?_⟩
  · rw [exec_ldVxK, execLdVxK, lowestKey_eq_none.2 noKey]
  · rw [exec_ldVxK, execLdVxK, lowestKey_of_lowest pressed lowest]
    obtain ⟨t, e, value, rest⟩ := writeResult_spec x (BitVec.ofNat 8 k.val) s
    refine ⟨t, e, ?_, rest⟩
    rw [value, BitVec.toNat_ofNat]
    omega

end Sys2Proof.Machine
end

section
/-!
PROOF. The host's events and the lifecycle (60_exceptions.md sections 1, 3 and 6, 70_reset_and_hazards.md section 1).
-/

namespace Sys2Proof.Machine

/-! ## Timers and keys -/

theorem onlyChanges_timerTick (s : State) : OnlyChanges [.delay, .sound] s (timerTick s) := by
  apply onlyChanges_of_fields <;> simp

/-- Settles O48: each timer falls by one, never below 0. -/
theorem tickCountsTimersDownToZero : Obligations.TickCountsTimersDownToZero := by
  intro s
  have st := toNat_tickTimer s.st
  refine ⟨timerTick s, rfl, toNat_tickTimer s.dt, st, rfl, onlyChanges_timerTick s, ?_⟩
  rw [tone, decide_eq_true_iff, timerTick_st, st]
  omega

/-- Settles O49: by induction on the ticks. -/
theorem ticksRunTheDelayTimerOut : Obligations.TicksRunTheDelayTimerOut := by
  intro s n
  induction n generalizing s with
  | zero => exact ⟨s, rfl, rfl, rfl, onlyChanges_refl _ s⟩
  | succ n ih =>
    obtain ⟨t, run, dt, st, frame⟩ := ih (timerTick s)
    refine ⟨t, run, ?_, ?_, onlyChanges_trans (onlyChanges_timerTick s) frame⟩
    · rw [dt, timerTick_dt, toNat_tickTimer]
      omega
    · rw [st, timerTick_st, toNat_tickTimer]
      omega

/-- Settles O56: the keys are the one field written. -/
theorem setKeysWritesTheKeys : Obligations.SetKeysWritesTheKeys := by
  intro s k
  refine ⟨setKeys k s, rfl, rfl, rfl, ?_⟩
  apply onlyChanges_of_fields <;> simp

/-! ## Power-on, reset and load -/

theorem readReg_powerOn (s : State) (r : Nibble) : readReg (powerOn s) r = 0x00#8 := by
  simp [readReg, State.reset]

theorem powerOn_slot (s : State) (k : Fin 16) : (powerOn s).stack[k] = 0x0000#16 := by
  simp [State.reset]

/-- Settles O50: what a reset sets is what power-on sets, but for memory. -/
theorem resetClearsAllButMemory : Obligations.ResetClearsAllButMemory := fun s =>
  ⟨hostReset s, rfl, readReg_powerOn s, rfl, rfl, rfl, powerOn_slot s, rfl, rfl, Framebuffer.cell_blank, rfl, rfl, rfl⟩

theorem font_length : Config.font.length = 80 := by decide

theorem initialByte_of_font {a : Nat} (h : a < 80) : Config.font[a]? = some (initialByte a) := by
  rw [← font_length] at h
  simp [initialByte, List.getD, h]

theorem initialByte_of_ge {a : Nat} (h : 80 ≤ a) : initialByte a = 0x00#8 := by
  rw [← font_length] at h
  simp [initialByte, List.getD, h, Config.memInit]

/-- Settles O51: memory lists nothing, so every byte reads as at power-on. -/
theorem powerOnLoadsFontAndClears : Obligations.PowerOnLoadsFontAndClears := fun s =>
  ⟨powerOn s, rfl, readReg_powerOn s, rfl, rfl, rfl, powerOn_slot s, rfl, rfl, Framebuffer.cell_blank, rfl, rfl,
    font_length, fun _ h => initialByte_of_font h, fun _ h => initialByte_of_ge h⟩

/-- Settles O52: an image that fits is a store within memory, a longer one is refused. -/
theorem loadPlacesTheImageOrRefuses : Obligations.LoadPlacesTheImageOrRefuses := by
  intro s image wf
  refine ⟨fun fits => ?_, fun long => load_of_gt long s⟩
  have room : 0x200 + image.length ≤ 4096 := by omega
  refine ⟨_, load_of_le fits s, fun k hk => ?_, memoryKeptOutside_of_store wf room rfl, rfl, ?_⟩
  · rw [readByte_of_store wf room hk]
    simp [List.getD, hk]
  · apply onlyChanges_of_fields <;> simp

theorem runEvents_powerOn_load {image : List Byte} (h : image.length ≤ 3584) (s : State) :
    runEvents .off [.powerOn, .load image] s =
      .next { launchState image s.keys with draws := s.draws, outputs := s.outputs } := by
  simp only [runEvents, Phase.after, applyEvent, load_of_le h]
  rfl

/-- Settles O53: the image's first two bytes stand at 0x200, where the launch state fetches. -/
theorem firstStepRunsTheImage : Obligations.FirstStepRunsTheImage := by
  intro s hi lo rest h
  have fits : (hi :: lo :: rest).length ≤ 3584 := h
  have room : 0x200 + (hi :: lo :: rest).length ≤ 4096 := by omega
  have high := readByte_of_store wf_nil room (k := 0) (by simp)
  have low := readByte_of_store wf_nil room (k := 1) (by simp)
  refine ⟨_, runEvents_powerOn_load fits s, rfl, rfl, readReg_powerOn s, rfl, ?_⟩
  refine step_of_fetch rfl (fetch_eq_some.2 ⟨?_, ?_⟩)
  · show Config.progBase.toNat ≤ 0xFFE
    decide
  · show wordOfBytes hi lo = readByte (writeBytes [] 0x200 _) (0x200 + 0) ++ readByte (writeBytes [] 0x200 _) (0x200 + 1)
    rw [high, low]
    rfl

/-! ## The latch -/

/-- Settles O54: a latched block's `Step` changes nothing, and the other events keep the latch. -/
theorem onlyResetLeavesAFault : Obligations.OnlyResetLeavesAFault := by
  intro s t e latched h opened
  cases e with
  | powerOn => exact .inr rfl
  | reset => exact .inl rfl
  | load image =>
    obtain ⟨_, rfl⟩ := load_cases h
    exact absurd opened latched
  | step =>
    cases (step_of_fault latched).symm.trans h
    exact absurd opened latched
  | timerTick | setKeys =>
    cases h
    exact absurd opened latched

/-- Once launched, without a reset, a run that ends with no fault began with none. -/
theorem fault_eq_none_of_run {events : List Event} {s t : State} (h : runEvents .launched events s = .next t)
    (noReset : .reset ∉ events) (noFault : t.fault = none) : s.fault = none := by
  induction events generalizing s with
  | nil =>
    cases h
    exact noFault
  | cons e rest ih =>
    rw [List.mem_cons, not_or] at noReset
    simp only [runEvents] at h
    cases phase : Phase.after .launched e with
    | none => simp [phase] at h
    | some q =>
      cases phase_after_launched phase
      simp only [phase] at h
      cases answer : applyEvent e s with
      | next u =>
        rw [answer] at h
        by_contra latched
        rcases onlyResetLeavesAFault s u e latched answer (ih h noReset.2) with rfl | rfl
        · exact noReset.1 rfl
        · simp [Phase.after] at phase
      | fault r => simp [answer] at h
      | refused r =>
        rw [answer] at h
        cases r with
        | imageTooLarge => exact ih h noReset.2
        | notModelled | hostOutOfOrder => simp at h

/-- Settles O55: the run is cut in two, and the latch is empty at the cut since no reset follows. -/
theorem safeRunHadNoEarlierFault : Obligations.SafeRunHadNoEarlierFault := by
  rintro s t earlier later ⟨run, noFault⟩ noReset
  obtain ⟨u, first, second⟩ := runEvents_launched_append.1 run
  exact ⟨u, ⟨first, fault_eq_none_of_run second noReset noFault⟩, second, noFault⟩

/-! ## A load that fails -/

/-- The events that the host may send whether or not a load failed (R177). -/
def Quiet (e : Event) : Prop := e = .timerTick ∨ e = .reset ∨ ∃ k, e = .setKeys k

/-- Before a load and after one that failed, a quiet event is taken alike and writes no byte of memory. -/
theorem runEvents_quiet {p : Phase} (waiting : p = .poweredOn ∨ p = .loadFailed) {e : Event} (quiet : Quiet e)
    (s : State) : ∃ t, applyEvent e s = .next t ∧ t.mem = s.mem ∧
      ∀ rest, runEvents p (e :: rest) s = runEvents p rest t := by
  rcases waiting with rfl | rfl <;> rcases quiet with rfl | rfl | ⟨k, rfl⟩ <;> exact ⟨_, rfl, rfl, fun _ => rfl⟩

/-- Quiet events lead both phases to one state, with memory as before, and leave each phase as it is. -/
theorem runEvents_quiet_append {events : List Event} (quiet : ∀ e ∈ events, Quiet e) (s : State) :
    ∃ t, t.mem = s.mem ∧ ∀ p, p = .poweredOn ∨ p = .loadFailed →
      ∀ rest, runEvents p (events ++ rest) s = runEvents p rest t := by
  induction events generalizing s with
  | nil => exact ⟨s, rfl, fun _ _ _ => rfl⟩
  | cons e events ih =>
    have first := quiet e List.mem_cons_self
    obtain ⟨u, taken, umem, _⟩ := runEvents_quiet (.inl rfl) first s
    obtain ⟨t, tmem, run⟩ := ih (fun e he => quiet e (List.mem_cons_of_mem _ he)) u
    refine ⟨t, tmem.trans umem, fun p waiting rest => ?_⟩
    obtain ⟨u', taken', _, step⟩ := runEvents_quiet waiting first s
    cases taken.symm.trans taken'
    rw [List.cons_append, step, run p waiting]

theorem runEvents_failed_load {image : List Byte} (h : image.length > 3584) (rest : List Event) (s : State) :
    runEvents .poweredOn (.load image :: rest) s = runEvents .loadFailed rest s := by
  simp only [runEvents, Phase.after, applyEvent, load_of_gt h]
  rfl

/-- Settles O57: after the failure every event allowed is quiet, and the lifecycle refuses a `Step` and a `Load`. -/
theorem failedLoadBarsEveryStep : Obligations.FailedLoadBarsEveryStep := by
  intro s image events later barred long quiet hbarred
  obtain ⟨t, mem, run⟩ := runEvents_quiet_append quiet s
  have finish (p) (waiting : p = .poweredOn ∨ p = .loadFailed) : runEvents p events s = .next t := by
    simpa [runEvents] using run p waiting []
  refine ⟨⟨t, ?_, finish _ (.inl rfl), mem⟩, ?_⟩
  · rw [runEvents_failed_load long, finish _ (.inr rfl)]
  · rw [runEvents_failed_load long, run _ (.inr rfl)]
    rcases hbarred with rfl | ⟨other, rfl⟩ <;> rfl

end Sys2Proof.Machine
end
